-- ==== Sys2Proof/Word.lean ====
section
/-! DEFINITION. The word types of the block: bytes of the stream, 16-bit checksums, 12-bit command words. -/

namespace Sys2Proof

/-- One byte of the stream (00 R5: 8 bits). -/
abbrev Byte := BitVec 8

/-- A 16-bit checksum value or CRC register (40 R73). -/
abbrev Word16 := BitVec 16

/-- A command word: `op` in bits 11..8, `imm` in bits 7..0 (30 R59). -/
abbrev CommandWord := BitVec 12

/-- The payload of a validated wire frame, in stream order (30 R55). It has `L` bytes. -/
abbrev Frame := List Byte

end Sys2Proof
end

