-- ==== Sys2Proof/Config.lean ====
section
/-! DEFINITION. What an implementation fixes (00 R5, rows marked OPEN), and the free values of the
port binding (93 K19). -/

namespace Sys2Proof

/-- A capacity or a limit: a natural number, or `INF`, which is larger than every natural (00 R8). -/
inductive Capacity where
  | fin (n : Nat)
  | inf
deriving DecidableEq, Repr

/-- The open parameters that are not part of the configuration record (00 R5, 92 section 6). No
operation writes them. -/
structure Params where
  /-- `IN_DEPTH`: capacity of the input FIFO in bytes (92 D4). -/
  inDepth : Capacity
  /-- `OUT_DEPTH`: capacity of the output FIFO in frames (92 D5). -/
  outDepth : Capacity
  /-- `N_MAX`: the longest sync pattern the implementation can hold (92 D14). -/
  nMax : Capacity
  /-- `L_MAX`: the longest payload the implementation can hold (92 D14). -/
  lMax : Capacity
deriving DecidableEq, Repr

/-- The document's block: unbounded queues, no limit on `N` and `L` (92 section 6, "`INF` reproduces
the document"). The values State.reset holds. DESIGN CHOICE (unsafe), log 2. -/
def Config.documentParams : Params := ⟨.inf, .inf, .inf, .inf⟩

/-- The sync pattern State.reset holds. The spec gives no bytes (91 N1): these are the ones its own
vectors use (95 configuration TR). DESIGN CHOICE (unsafe), log 1. -/
def Config.resetSync : List Byte := [0xAA, 0x55, 0xC3, 0x3C]

/-- The payload length State.reset holds: the reference value of 00 R5. DESIGN CHOICE (unsafe), log 1. -/
def Config.resetPayloadLen : Nat := 128

/-- Free value: `evt_code` in a cycle with `evt_valid == 0` (93 K19), by cycle number. Log 10. -/
opaque Config.freeEvtCode : Nat → BitVec 2

/-- Free value: `out_data` in a cycle with `out_valid == 0` (93 K19), by cycle number. Log 10. -/
opaque Config.freeOutData : Nat → Nat

/-- Free value: `in_empty` in a cycle with no instance, by cycle number. Log 10. -/
opaque Config.freeInEmpty : Nat → Bool

/-- Free value: `out_ovf` in a cycle with no instance, by cycle number. Log 10. -/
opaque Config.freeOutOvf : Nat → Bool

/-- Free value: `cfg_err` in a cycle before the first construction, by cycle number. Log 10. -/
opaque Config.freeCfgErr : Nat → BitVec 3

end Sys2Proof
end

