-- ==== Sys2Proof/Syntax.lean ====
section
/-! DEFINITION. The eleven operations of 00 R7, one constructor for each row of
`spec/opcode_table.json`, and the command that carries one (30 R59). -/

namespace Sys2Proof

/-- The configuration record (10 R11). `N` is the length of the pattern, so `|SYNC| == N` (43 R120)
holds by construction (log 15). -/
structure CfgRecord where
  /-- `SYNC[0..N-1]`, `SYNC[0]` first on the wire. -/
  syncPattern : List Byte
  /-- `L`, the payload length in bytes. -/
  payloadLen : Nat
deriving DecidableEq, Repr

/-- `N`, the length of the sync pattern (10 R11). -/
def CfgRecord.n (c : CfgRecord) : Nat := c.syncPattern.length

/-- The operations (00 R7, 30 R59). -/
inductive Instr where
  | reset
  | config (cfg : Option CfgRecord)
  | crc16 (bytes : List Byte)
  | processByte (b : Byte)
  | inEnq (chunk : List Byte)
  | inDeq
  | step
  | drain
  | outEnq (frame : Frame)
  | outDeq
  | close
deriving DecidableEq, Repr

/-- A command: its word, and what the caller presents beside the word (30 R59, format V): a byte
sequence and a configuration record. An operation reads the one its format names, and the others are
not looked at (log 5). -/
structure Command where
  word : CommandWord
  bytes : List Byte
  cfg : Option CfgRecord
deriving DecidableEq, Repr

end Sys2Proof
end

