-- ==== Sys2Proof/WellFormed.lean ====
section
/-! DEFINITION. Which parameters, configurations, operations and command words the spec calls legal.
The predicates are Bools, so that `decide` runs on them. -/

namespace Sys2Proof

/-- A capacity admits every natural up to it (00 R8: `n < INF` for all naturals). -/
def Capacity.admits : Capacity → Nat → Bool
  | .fin c, n => decide (n ≤ c)
  | .inf, _ => true

/-- Every parameter is a natural `>= 1` or `INF` (92 section 6). -/
def Params.wellFormed (p : Params) : Bool :=
  p.inDepth.admits 1 && p.outDepth.admits 1 && p.nMax.admits 1 && p.lMax.admits 1

/-- A legal configuration: `1 <= N <= N_MAX` and `1 <= L <= L_MAX` (10 R11). -/
def CfgRecord.wellFormed (p : Params) (c : CfgRecord) : Bool :=
  decide (1 ≤ c.n) && p.nMax.admits c.n && decide (1 ≤ c.payloadLen) && p.lMax.admits c.payloadLen

/-- A legal operand for an instance of payload length `L`: the operand of `OUT_ENQ` has exactly `L`
bytes; every other operand is legal (30 R61). -/
def Instr.wellFormed (payloadLen : Nat) : Instr → Bool
  | .reset => true
  | .config _ => true
  | .crc16 _ => true
  | .processByte _ => true
  | .inEnq _ => true
  | .inDeq => true
  | .step => true
  | .drain => true
  | .outEnq frame => decide (frame.length = payloadLen)
  | .outDeq => true
  | .close => true

/-- A command word that is not reserved (30 R60): its tag is at most `0xA`, and `imm` is `0x00`
unless the tag is that of `PROCESS_BYTE`. -/
def Command.wellFormed (c : Command) : Bool :=
  decide (c.word.toNat / 256 ≤ 0xA) &&
    (decide (c.word.toNat / 256 = 0x3) || decide (c.word.toNat % 256 = 0))

end Sys2Proof
end

