-- ==== Sys2Proof/Decode.lean ====
section
/-! DEFINITION. Command words to operations and back (30 R59, R60). -/

namespace Sys2Proof

/-- `op = word[11:8]` (30 R59). -/
def commandTag (w : CommandWord) : BitVec 4 := w.extractLsb' 8 4

/-- `imm = word[7:0]` (30 R59). -/
def commandImm (w : CommandWord) : Byte := w.extractLsb' 0 8

/-- The word with the given fields (30 R59). -/
def commandWord (tag : BitVec 4) (imm : Byte) : CommandWord := tag ++ imm

/-- Why a word is no operation (30 R60). Safe: the word has the effect R148 gives it. -/
inductive DecodeReject where
  /-- Tags `0xB` to `0xF` are reserved (93 K14). -/
  | reservedTag (tag : BitVec 4)
  /-- A format Z or format V word whose `imm` is not `0x00` (93 K15). -/
  | nonzeroImm (tag : BitVec 4) (imm : Byte)
deriving DecidableEq, Repr

/-- A word of format Z or V stands for `i` only where `imm` is `0x00` (30 R59, R60). -/
def decodePlain (w : CommandWord) (i : Instr) : Except DecodeReject Instr :=
  if commandImm w = 0 then .ok i else .error (.nonzeroImm (commandTag w) (commandImm w))

/-- The operation a command stands for (30 R59), or why it stands for none (30 R60). -/
def decode (c : Command) : Except DecodeReject Instr :=
  match (commandTag c.word).toNat with
  | 0x0 => decodePlain c.word .reset
  | 0x1 => decodePlain c.word (.config c.cfg)
  | 0x2 => decodePlain c.word (.crc16 c.bytes)
  | 0x3 => .ok (.processByte (commandImm c.word))
  | 0x4 => decodePlain c.word (.inEnq c.bytes)
  | 0x5 => decodePlain c.word .inDeq
  | 0x6 => decodePlain c.word .step
  | 0x7 => decodePlain c.word .drain
  | 0x8 => decodePlain c.word (.outEnq c.bytes)
  | 0x9 => decodePlain c.word .outDeq
  | 0xA => decodePlain c.word .close
  | _ => .error (.reservedTag (commandTag c.word))

/-- The command of an operation: its tag, its `imm` (30 R59), and its operand beside the word. -/
def encode : Instr → Command
  | .reset => ⟨commandWord 0x0 0, [], none⟩
  | .config cfg => ⟨commandWord 0x1 0, [], cfg⟩
  | .crc16 bytes => ⟨commandWord 0x2 0, bytes, none⟩
  | .processByte b => ⟨commandWord 0x3 b, [], none⟩
  | .inEnq chunk => ⟨commandWord 0x4 0, chunk, none⟩
  | .inDeq => ⟨commandWord 0x5 0, [], none⟩
  | .step => ⟨commandWord 0x6 0, [], none⟩
  | .drain => ⟨commandWord 0x7 0, [], none⟩
  | .outEnq frame => ⟨commandWord 0x8 0, frame, none⟩
  | .outDeq => ⟨commandWord 0x9 0, [], none⟩
  | .close => ⟨commandWord 0xA 0, [], none⟩

/-- One row of the opcode table: a word is the row's where `word & mask == pattern`. -/
structure OpcodeRow where
  mnemonic : String
  mask : CommandWord
  pattern : CommandWord
deriving DecidableEq, Repr

/-- The table of `spec/opcode_table.json`, row for row. -/
def opcodeTable : List OpcodeRow :=
  [⟨"RESET", 0xFFF, 0x000⟩, ⟨"CONFIG", 0xFFF, 0x100⟩, ⟨"CRC16", 0xFFF, 0x200⟩,
   ⟨"PROCESS_BYTE", 0xF00, 0x300⟩, ⟨"IN_ENQ", 0xFFF, 0x400⟩, ⟨"IN_DEQ", 0xFFF, 0x500⟩,
   ⟨"STEP", 0xFFF, 0x600⟩, ⟨"DRAIN", 0xFFF, 0x700⟩, ⟨"OUT_ENQ", 0xFFF, 0x800⟩,
   ⟨"OUT_DEQ", 0xFFF, 0x900⟩, ⟨"CLOSE", 0xFFF, 0xA00⟩]

/-- The mnemonic of an operation (00 R7). -/
def Instr.mnemonic : Instr → String
  | .reset => "RESET"
  | .config _ => "CONFIG"
  | .crc16 _ => "CRC16"
  | .processByte _ => "PROCESS_BYTE"
  | .inEnq _ => "IN_ENQ"
  | .inDeq => "IN_DEQ"
  | .step => "STEP"
  | .drain => "DRAIN"
  | .outEnq _ => "OUT_ENQ"
  | .outDeq => "OUT_DEQ"
  | .close => "CLOSE"

/-- The row whose pattern a word matches, if any. -/
def rowOfWord (w : CommandWord) : Option OpcodeRow :=
  opcodeTable.find? (fun r => w &&& r.mask == r.pattern)

/-- The number `w` (its low `nbits` bits, every bit above them 0) as a command. A number that does
not fit the 12-bit word is no command word and is given to the decoder as the reserved word `0xF00`,
which it rejects. The operand beside the word is all zeros: nothing beside it, and for `OUT_ENQ`,
whose operand is a Frame value, the frame of zero bytes of the length State.reset is configured for
(log 5). -/
def tableCommand (nbits w : Nat) : Command :=
  let v := w % 2 ^ nbits
  let word : CommandWord := if v < 4096 then BitVec.ofNat 12 v else 0xF00
  { word := word
    bytes := if commandTag word = 0x8 then List.replicate Config.resetPayloadLen 0 else []
    cfg := none }

/-- The operation the decoder reads from an opcode-table word. -/
def decodeTableWord (nbits w : Nat) : Option Instr :=
  match decode (tableCommand nbits w) with
  | .ok i => some i
  | .error _ => none

end Sys2Proof
end

