-- ==== Sys2Proof/Machine/State.lean ====
section
/-! DEFINITION. The state of the block (10 R10), the results of its operations (30 R56 to R59), and
the inputs the outside presents to it. Plain data. -/

namespace Sys2Proof.Machine

open Sys2Proof

/-- `mode` (10 R12). -/
inductive Mode where
  | seeking
  | capturing
deriving DecidableEq, Repr

/-- The tagged union of 10 R18: a counter exists in the mode that uses it. -/
inductive SyncState where
  /-- `Seeking(matchIndex)`: sync bytes matched so far (10 R13). -/
  | seeking (matchIndex : Nat)
  /-- `Capturing(payloadFill, crcFill, crcHi)`: payload bytes captured (10 R15), checksum bytes
  collected (10 R16), the first checksum byte (10 R17). -/
  | capturing (payloadFill : Nat) (crcFill : Fin 2) (crcHi : Byte)
deriving DecidableEq, Repr

/-- The synchronizer: its state and `payloadBuffer[0..L-1]` (10 R14). -/
structure Synchronizer where
  state : SyncState
  payloadBuffer : List Byte
deriving DecidableEq, Repr

/-- One constructed instance (10 R10). -/
structure Block where
  /-- `N`, `SYNC`, `L`, written only by `CONFIG` (10 R11). -/
  cfg : CfgRecord
  /-- The synchronizer working registers (10 R12 to R18). -/
  sync : Synchronizer
  /-- The input FIFO, oldest byte first (10 R21). -/
  inq : List Byte
  /-- The output FIFO, oldest Frame value first (10 R22). -/
  outq : List Frame
  /-- The sticky bit `out_ovf` (10 R24, 60 R136). -/
  outOvf : Bool
deriving DecidableEq, Repr

/-- The hard errors of construction (30 R58). -/
inductive CfgError where
  | errNullConfig
  | errZeroSync
  | errZeroPayload
  | errResource
deriving DecidableEq, Repr

/-- Whether there is an instance (43 R122): none was constructed yet, the construction failed, or
there is one. -/
inductive Construction where
  | unbuilt
  | failed (e : CfgError)
  | built (x : Block)
deriving DecidableEq, Repr

/-- The events of `PROCESS_BYTE` (30 R56). -/
inductive Event where
  | none
  | frameValid
  | crcError
  | frameDropped
deriving DecidableEq, Repr

/-- The result codes of the queue operations (30 R57). -/
inductive QueueCode where
  | ok
  | empty
  | errFull
  | errIllegalOp
deriving DecidableEq, Repr

/-- The input signals of one clock cycle (30 R62). -/
structure PortsIn where
  rst : Bool
  inValid : Bool
  inData : Byte
  run : Bool
  close : Bool
  outReady : Bool
deriving DecidableEq, Repr

/-- The output signals of one clock cycle (30 R62). `outData` is the number on the `8 * L`-bit bus,
payload byte `i` in bits `8i+7 .. 8i` (30 R55). -/
structure PortsOut where
  cfgErr : BitVec 3
  inReady : Bool
  inEmpty : Bool
  evtValid : Bool
  evtCode : BitVec 2
  outValid : Bool
  outData : Nat
  outOvf : Bool
deriving DecidableEq, Repr

/-- What an operation returns (30 R59, last column). -/
inductive Result where
  /-- `RESET` returns nothing. -/
  | done
  /-- `CONFIG`: `CFG_OK` (`none`) or a hard error. -/
  | configured (e : Option CfgError)
  /-- `CRC16`. -/
  | checksum (v : Word16)
  /-- `PROCESS_BYTE`: the event, and the Frame value where the checksum matched (41 R80). -/
  | processed (evt : Event) (frame : Option Frame)
  /-- `IN_ENQ`, `OUT_ENQ`: `OK` (`true`) or `ERR_FULL` (`false`). -/
  | enqueued (ok : Bool)
  /-- `IN_DEQ`: `OK` with the byte, or `EMPTY` (`none`). -/
  | byteOut (b : Option Byte)
  /-- `STEP`: `OK` with the event, or `EMPTY` (`none`). -/
  | stepped (evt : Option Event)
  /-- `DRAIN`: the events of its steps, in order. -/
  | drained (evts : List Event)
  /-- `OUT_DEQ`: `OK` with the Frame value, or `EMPTY` (`none`). -/
  | frameOut (f : Option Frame)
  /-- `CLOSE`: the bit `discarded`. -/
  | closed (discarded : Bool)
  /-- A reserved command word: `ERR_ILLEGAL_OP` (60 R148). -/
  | illegalOp
  /-- A clock cycle: the output signals (30 R62). -/
  | ports (o : PortsOut)
deriving DecidableEq, Repr

/-- One item of the interleaving (20 R43): what happens next, whoever does it. -/
inductive Input where
  /-- An agent invokes the operation of a command. -/
  | op (c : Command)
  /-- A clock cycle of the port binding (30 R62). -/
  | cycle (p : PortsIn)
  /-- The engine takes one turn of a `DRAIN` that other agents may interleave (42 R105): it begins
  one, or goes on with the one in flight. -/
  | drainTurn
deriving DecidableEq, Repr

/-- The machine. `inst` is the spec's state (10 R10). `straps` are the constants of the port binding
(30 R62) and `params` the open parameters (00 R5): no operation writes them. The other fields are the
model's own (log 3, 4, 9, 10). -/
structure State where
  inst : Construction
  straps : CfgRecord
  params : Params
  /-- The interleaving still to come. -/
  pending : List Input
  /-- What the last operation returned; no operation reads it (10 R25). -/
  result : Option Result
  /-- The events so far of a `DRAIN` in flight. -/
  draining : Option (List Event)
  /-- How many port cycles have passed: the index of the free values. -/
  portCycles : Nat
deriving DecidableEq, Repr

/-- The block never stops with a fault (41 R98, 70 R161; 20 R31: "a model needs no fault for it"), so
there is none: its errors are results of operations (60 R130). -/
inductive Fault where
deriving DecidableEq, Repr

/-- Why an operation is refused. -/
inductive Refusal where
  /-- Raised by the dispatcher for an operation without a meaning; no arm raises it. Safe. -/
  | notModelled (mnemonic : String)
  /-- Raised by every operation but `CONFIG` where there is no instance (43 R122, 60 R147). Safe. -/
  | noInstance
  /-- Raised by `OUT_ENQ` for an operand that does not have `L` bytes (60 R147, 30 R61). Safe. -/
  | frameLength
deriving DecidableEq, Repr

/-- What a step answers. -/
abbrev Answer := Host.Outcome State Fault Refusal

/-- An instance in the reset state (10 R29). -/
def Block.fresh (c : CfgRecord) : Block where
  cfg := c
  sync := ⟨.seeking 0, List.replicate c.payloadLen 0⟩
  inq := []
  outq := []
  outOvf := false

/-- The configuration State.reset holds: `N = 4`, `L = 128` (00 R5), the vectors' `SYNC` (95 TR).
DESIGN CHOICE (unsafe), log 1. -/
def resetCfg : CfgRecord := ⟨Config.resetSync, Config.resetPayloadLen⟩

/-- The machine right after reset: an instance in the reset state of 10 R29, and nothing pending. -/
def State.reset : State where
  inst := .built (Block.fresh resetCfg)
  straps := resetCfg
  params := Config.documentParams
  pending := []
  result := none
  draining := none
  portCycles := 0

/-- The machine before any construction: there is no instance yet (10 R11, 43 R122). -/
def State.powerOn : State := { State.reset with inst := .unbuilt }

end Sys2Proof.Machine
end

