-- ==== Sys2Proof/Machine/Operands.lean ====
section
/-! DEFINITION. The values the block assembles from bytes (30 R67), the bus layout of a Frame value
(30 R55), and the register view of the synchronizer state (10 R12 to R18). -/

namespace Sys2Proof.Machine

open Sys2Proof

/-- `zext_16(b)` (00 R8). -/
def zext16 (b : Byte) : Word16 := b.setWidth 16

/-- The received checksum: `(zext_16(first) << 8) | zext_16(second)` (30 R53). -/
def receivedChecksum (first second : Byte) : Word16 := (zext16 first <<< 8) ||| zext16 second

/-- The CRC input of a byte: `zext_16(b) << 8` (30 R67, 40 R71). -/
def crcInput (b : Byte) : Word16 := zext16 b <<< 8

/-- The high byte `v[15:8]` (00 R8). -/
def highByte (v : Word16) : Byte := v.extractLsb' 8 8

/-- The low byte `v[7:0]` (00 R8). -/
def lowByte (v : Word16) : Byte := v.extractLsb' 0 8

/-- The checksum field a sender builds: the high byte, then the low byte (30 R53, 20 R35). -/
def checksumField (v : Word16) : List Byte := [highByte v, lowByte v]

/-- The number on the bus that carries a Frame value: byte `i` in bits `8i+7 .. 8i` (30 R55). -/
def frameBus : Frame → Nat
  | [] => 0
  | b :: rest => b.toNat + 256 * frameBus rest

/-- `mode` (10 R12). -/
def SyncState.mode : SyncState → Mode
  | .seeking _ => .seeking
  | .capturing _ _ _ => .capturing

/-- `matchIndex`, printed as 0 where it is a dead field (10 R18). -/
def SyncState.matchIndex : SyncState → Nat
  | .seeking k => k
  | .capturing _ _ _ => 0

/-- `payloadFill`, printed as 0 where it is a dead field (10 R18). -/
def SyncState.payloadFill : SyncState → Nat
  | .seeking _ => 0
  | .capturing fill _ _ => fill

/-- `crcFill`, printed as 0 where it is a dead field (10 R18). -/
def SyncState.crcFill : SyncState → Fin 2
  | .seeking _ => 0
  | .capturing _ crcFill _ => crcFill

/-- `crcHi`, printed as 0 where it is a dead field (10 R18). -/
def SyncState.crcHi : SyncState → Byte
  | .seeking _ => 0
  | .capturing _ _ crcHi => crcHi

end Sys2Proof.Machine
end

