-- ==== Sys2Proof/Machine/Flags.lean ====
section
/-! DEFINITION. The status flags (10 R24) and the numeric codes of events, results and construction
errors (30 R56 to R58). -/

namespace Sys2Proof.Machine

open Sys2Proof

/-- Whether a queue of `n` entries has as many as its capacity; never with `INF` (10 R24). -/
def Capacity.reached : Capacity → Nat → Bool
  | .fin c, n => decide (n = c)
  | .inf, _ => false

/-- `in_empty`: `|inq| == 0` (10 R24). -/
def inEmpty (x : Block) : Bool := x.inq.isEmpty

/-- `in_full`: `|inq| == IN_DEPTH` (10 R24). -/
def inFull (p : Params) (x : Block) : Bool := Capacity.reached p.inDepth x.inq.length

/-- `out_empty`: `|outq| == 0` (10 R24). -/
def outEmpty (x : Block) : Bool := x.outq.isEmpty

/-- `out_full`: `|outq| == OUT_DEPTH` (10 R24). -/
def outFull (p : Params) (x : Block) : Bool := Capacity.reached p.outDepth x.outq.length

/-- The number of a mode (92 D21). -/
def Mode.code : Mode → BitVec 1
  | .seeking => 0
  | .capturing => 1

/-- The event codes (30 R56). -/
def Event.code : Event → BitVec 2
  | .none => 0
  | .frameValid => 1
  | .crcError => 2
  | .frameDropped => 3

/-- The result codes of the queue operations (30 R57). -/
def QueueCode.code : QueueCode → BitVec 2
  | .ok => 0
  | .empty => 1
  | .errFull => 2
  | .errIllegalOp => 3

/-- The construction result codes (30 R58): `CFG_OK` is `none`. -/
def cfgCode : Option CfgError → BitVec 3
  | none => 0
  | some .errNullConfig => 1
  | some .errZeroSync => 2
  | some .errZeroPayload => 3
  | some .errResource => 4

/-- `EMPTY` where a dequeue found nothing, else `OK` (30 R57). -/
def dequeueCode {α : Type} : Option α → QueueCode
  | none => .empty
  | some _ => .ok

/-- The queue result code of a result, for the operations that return one (30 R57). -/
def Result.queueCode : Result → Option QueueCode
  | .enqueued ok => some (if ok then .ok else .errFull)
  | .byteOut b => some (dequeueCode b)
  | .stepped evt => some (dequeueCode evt)
  | .frameOut f => some (dequeueCode f)
  | .illegalOp => some .errIllegalOp
  | .done => none
  | .configured _ => none
  | .checksum _ => none
  | .processed _ _ => none
  | .drained _ => none
  | .closed _ => none
  | .ports _ => none

end Sys2Proof.Machine
end

