-- ==== Sys2Proof/Machine/Ops.lean ====
section
/-! DEFINITION. The named operations over the block's stores (20 R30) and over State. The block has
no exceptions to take and none to return from (60 R140, R141): a hard error is the result of its
operation, and an illegal command word is `illegalCommand`. -/

namespace Sys2Proof.Machine

open Sys2Proof

/-! ### The payload buffer (10 R14) -/

/-- All `L` bytes set to `0x00` (10 R14). -/
def zeroBuffer (c : CfgRecord) : List Byte := List.replicate c.payloadLen 0

/-- `payloadBuffer[i] <- b` (20 R31). -/
def writeBuffer (buf : List Byte) (i : Nat) (b : Byte) : List Byte := buf.set i b

/-- A copy of `payloadBuffer[0..L)`: its length is the constant `L` (41 R86, 70 R154). -/
def copyPayload (c : CfgRecord) (buf : List Byte) : Frame := buf.take c.payloadLen

/-! ### The two FIFOs (10 R21, R22) -/

/-- The input FIFO takes the whole chunk, or none of it where it does not fit (42 R100). -/
def enqueueChunk (p : Params) (x : Block) (chunk : List Byte) : Block × Bool :=
  if p.inDepth.admits (x.inq.length + chunk.length) then
    ({ x with inq := x.inq ++ chunk }, true)
  else (x, false)

/-- The oldest byte leaves the input FIFO, or there is none (42 R101). -/
def dequeueByte (x : Block) : Block × Option Byte :=
  match x.inq with
  | [] => (x, none)
  | b :: rest => ({ x with inq := rest }, some b)

/-- The output FIFO takes a Frame value, or is left as it is where it is full (42 R102). -/
def enqueueFrame (p : Params) (x : Block) (f : Frame) : Block × Bool :=
  if p.outDepth.admits (x.outq.length + 1) then ({ x with outq := x.outq ++ [f] }, true)
  else (x, false)

/-- The oldest Frame value leaves the output FIFO, or there is none (42 R103). -/
def dequeueFrame (x : Block) : Block × Option Frame :=
  match x.outq with
  | [] => (x, none)
  | f :: rest => ({ x with outq := rest }, some f)

/-! ### Updates of State -/

/-- The instance and the result become what an operation left. -/
def State.answer (s : State) (i : Construction) (r : Result) : State :=
  { s with inst := i, result := some r }

/-- The item at the head of `pending` has been taken. -/
def State.took (s : State) (rest : List Input) : State := { s with pending := rest }

/-- An operation on the instance: it writes the instance and returns a result. Where there is no
instance it is refused (43 R122, 60 R147). -/
def onBlock (s : State) (f : Block → Block × Result) : Answer :=
  match s.inst with
  | .built x => .next (s.answer (.built (f x).1) (f x).2)
  | .failed _ => .refused .noInstance
  | .unbuilt => .refused .noInstance

/-- A reserved command word changes nothing and returns `ERR_ILLEGAL_OP` (30 R60, 60 R148). -/
def illegalCommand (s : State) : State := { s with result := some .illegalOp }

end Sys2Proof.Machine
end

