-- ==== Sys2Proof/Machine/Crc.lean ====
section
/-! DEFINITION. The CRC engine: operation `CRC16` (40 R70 to R78). -/

namespace Sys2Proof.Machine

open Sys2Proof

/-- `CRC_POLY` (00 R5). -/
def crcPoly : Word16 := 0x1021

/-- `CRC_INIT` (00 R5). -/
def crcInit : Word16 := 0xFFFF

/-- `crc_round(r)`: one round (40 R72). -/
def crcRound (r : Word16) : Word16 :=
  if r.getLsbD 15 then (r <<< 1) ^^^ crcPoly else r <<< 1

/-- `n` rounds. -/
def crcRounds : Nat → Word16 → Word16
  | 0, r => r
  | n + 1, r => crcRounds n (crcRound r)

/-- `crc_update(r, b)`: fold one byte into the register (40 R71). -/
def crcUpdate (r : Word16) (b : Byte) : Word16 := crcRounds 8 (r ^^^ crcInput b)

/-- The loop of 40 R70 from the register value `r`. -/
def crcFold (r : Word16) : List Byte → Word16
  | [] => r
  | b :: rest => crcFold (crcUpdate r b) rest

/-- `CRC16(bytes)` (40 R70). -/
def crc16 (bytes : List Byte) : Word16 := crcFold crcInit bytes

/-- `CRC16`: a pure function of its operand (40 R70, R78). -/
def execCrc16 (bytes : List Byte) (s : State) : Answer :=
  onBlock s (fun x => (x, .checksum (crc16 bytes)))

end Sys2Proof.Machine
end

