-- ==== Sys2Proof/Machine/Synchronizer.lean ====
section
/-! DEFINITION. The synchronizer state machine: operation `PROCESS_BYTE` (41 R80 to R98). The pure
core and the output side are split as R80 suggests. -/

namespace Sys2Proof.Machine

open Sys2Proof

/-- What the core says about a byte (41 R80): no decision, a payload whose checksum matched, or one
whose checksum did not. -/
inductive CoreOutcome where
  | undecided
  | matched (payload : Frame)
  | mismatched
deriving DecidableEq, Repr

/-! ### The six arms -/

/-- Arm S-match: a sync byte matches and is not the last (41 R81). -/
def armSMatch (k : Nat) (y : Synchronizer) : Synchronizer × CoreOutcome :=
  ({ y with state := .seeking (k + 1) }, .undecided)

/-- Arm S-complete: the last sync byte matches, and capture begins with a zeroed buffer (41 R82). -/
def armSComplete (c : CfgRecord) : Synchronizer × CoreOutcome :=
  (⟨.capturing 0 0 0x00, zeroBuffer c⟩, .undecided)

/-- Arm S-mismatch: the search restarts at index 0, never at 1 (41 R83). -/
def armSMismatch (y : Synchronizer) : Synchronizer × CoreOutcome :=
  ({ y with state := .seeking 0 }, .undecided)

/-- Arm C-payload: one payload byte is stored (41 R84). -/
def armCPayload (fill : Nat) (crcFill : Fin 2) (crcHi : Byte) (y : Synchronizer) (b : Byte) :
    Synchronizer × CoreOutcome :=
  (⟨.capturing (fill + 1) crcFill crcHi, writeBuffer y.payloadBuffer fill b⟩, .undecided)

/-- Arm C-check1: the first checksum byte is kept (41 R85). -/
def armCCheck1 (fill : Nat) (y : Synchronizer) (b : Byte) : Synchronizer × CoreOutcome :=
  ({ y with state := .capturing fill 1 b }, .undecided)

/-- Arm C-check2: the second checksum byte decides, and the search starts afresh whatever the
decision (41 R86, R89). -/
def armCCheck2 (c : CfgRecord) (crcHi : Byte) (y : Synchronizer) (b : Byte) :
    Synchronizer × CoreOutcome :=
  let payload := copyPayload c y.payloadBuffer
  ({ y with state := .seeking 0 },
    if receivedChecksum crcHi b = crc16 payload then .matched payload else .mismatched)

/-- `sync_step(cfg, s, b)`: the pure core, with the dispatch of 41 R80. The invariants of 10 R19 make
`matchIndex < N` and `payloadFill <= L`; outside them a byte with no `SYNC[matchIndex]` to equal is a
mismatch, and a fill above `L` is in the checksum stage (log 8). -/
def syncStep (c : CfgRecord) (y : Synchronizer) (b : Byte) : Synchronizer × CoreOutcome :=
  match y.state with
  | .seeking k =>
    if c.syncPattern[k]? = some b then
      if k + 1 < c.n then armSMatch k y else armSComplete c
    else armSMismatch y
  | .capturing fill crcFill crcHi =>
    if fill < c.payloadLen then armCPayload fill crcFill crcHi y b
    else if crcFill = 0 then armCCheck1 fill y b
    else armCCheck2 c crcHi y b

/-! ### The output side -/

/-- Accept: the frame is appended to `outq`, or dropped with `out_ovf` set where `outq` is full
(41 R87). -/
def acceptFrame (p : Params) (x : Block) (payload : Frame) : Block × Event × Option Frame :=
  match enqueueFrame p x payload with
  | (x', true) => (x', .frameValid, some payload)
  | (x', false) => ({ x' with outOvf := true }, .frameDropped, some payload)

/-- Reject: the payload is discarded (41 R88). -/
def rejectFrame (x : Block) : Block × Event × Option Frame := (x, .crcError, none)

/-- `PROCESS_BYTE(b)` on an instance: the instance left, the event and the frame (41 R80). -/
def processByte (p : Params) (x : Block) (b : Byte) : Block × Event × Option Frame :=
  match syncStep x.cfg x.sync b with
  | (y, .undecided) => ({ x with sync := y }, .none, none)
  | (y, .matched payload) => acceptFrame p { x with sync := y } payload
  | (y, .mismatched) => rejectFrame { x with sync := y }

/-- `PROCESS_BYTE` (41 R80). -/
def execProcessByte (b : Byte) (s : State) : Answer :=
  onBlock s (fun x =>
    match processByte s.params x b with
    | (x', evt, frame) => (x', .processed evt frame))

end Sys2Proof.Machine
end

