-- ==== Sys2Proof/Machine/Queues.lean ====
section
/-! DEFINITION. The staging queues and the engine: operations `IN_ENQ`, `IN_DEQ`, `OUT_ENQ`,
`OUT_DEQ`, `STEP`, `DRAIN` (42 R100 to R105). -/

namespace Sys2Proof.Machine

open Sys2Proof

/-- `IN_ENQ` (42 R100). -/
def execInEnq (chunk : List Byte) (s : State) : Answer :=
  onBlock s (fun x => ((enqueueChunk s.params x chunk).1, .enqueued (enqueueChunk s.params x chunk).2))

/-- `IN_DEQ` (42 R101). -/
def execInDeq (s : State) : Answer :=
  onBlock s (fun x => ((dequeueByte x).1, .byteOut (dequeueByte x).2))

/-- `OUT_ENQ` (42 R102). An operand that does not have `L` bytes is refused (60 R147, 30 R61). -/
def execOutEnq (frame : Frame) (s : State) : Answer :=
  match s.inst with
  | .built x =>
    if frame.length = x.cfg.payloadLen then
      .next (s.answer (.built (enqueueFrame s.params x frame).1)
        (.enqueued (enqueueFrame s.params x frame).2))
    else .refused .frameLength
  | .failed _ => .refused .noInstance
  | .unbuilt => .refused .noInstance

/-- `OUT_DEQ` (42 R103). -/
def execOutDeq (s : State) : Answer :=
  onBlock s (fun x => ((dequeueFrame x).1, .frameOut (dequeueFrame x).2))

/-- `STEP()` on an instance: one byte from the input FIFO through the synchronizer, and its event, or
nothing where the FIFO is empty (42 R104). -/
def engineStep (p : Params) (x : Block) : Block × Option Event :=
  match dequeueByte x with
  | (x', none) => (x', none)
  | (x', some b) =>
    match processByte p x' b with
    | (x'', evt, _) => (x'', some evt)

/-- `STEP` (42 R104). -/
def execStep (s : State) : Answer :=
  onBlock s (fun x => ((engineStep s.params x).1, .stepped (engineStep s.params x).2))

/-- The loop of `DRAIN` (42 R105), at most `fuel` successful steps: it ends at the first `STEP` that
finds `inq` empty. -/
def drainLoop (p : Params) : Nat → Block → Block × List Event
  | 0, x => (x, [])
  | fuel + 1, x =>
    match engineStep p x with
    | (x', none) => (x', [])
    | (x', some evt) =>
      match drainLoop p fuel x' with
      | (x'', evts) => (x'', evt :: evts)

/-- `DRAIN()` with no operation of another agent in between: it ends after exactly `|inq|` successful
steps (42 R105). -/
def drainBlock (p : Params) (x : Block) : Block × List Event := drainLoop p x.inq.length x

/-- `DRAIN` (42 R105), the execution in which no other agent acts between its steps; the others are
engine turns, `drainTurn` (log 9). -/
def execDrain (s : State) : Answer :=
  onBlock s (fun x => ((drainBlock s.params x).1, .drained (drainBlock s.params x).2))

/-- One turn of a `DRAIN` that other agents may interleave (42 R105): one `STEP`. Where it finds
`inq` empty the `DRAIN` ends and returns its events; otherwise its event joins them (log 9). -/
def drainTurn (s : State) : Answer :=
  match s.inst with
  | .built x =>
    let soFar := s.draining.getD []
    match engineStep s.params x with
    | (x', none) =>
      .next { s.answer (.built x') (.drained soFar) with draining := none }
    | (x', some evt) =>
      .next { s.answer (.built x') (.stepped (some evt)) with draining := some (soFar ++ [evt]) }
  | .failed _ => .refused .noInstance
  | .unbuilt => .refused .noInstance

end Sys2Proof.Machine
end

