-- ==== Sys2Proof/Machine/Lifecycle.lean ====
section
/-! DEFINITION. The owner's operations: `CONFIG`, `RESET`, `CLOSE` (43 R120 to R127). -/

namespace Sys2Proof.Machine

open Sys2Proof

/-- `check(cfg)`: the lowest-numbered hard error, or the record to construct with (43 R121). -/
def checkConfig (p : Params) : Option CfgRecord → Except CfgError CfgRecord
  | none => .error .errNullConfig
  | some c =>
    if c.n = 0 then .error .errZeroSync
    else if c.payloadLen = 0 then .error .errZeroPayload
    else if p.nMax.admits c.n && p.lMax.admits c.payloadLen then .ok c
    else .error .errResource

/-- What `RESET` leaves of an instance: everything but the configuration at its reset value
(43 R123). -/
def resetBlock (x : Block) : Block where
  cfg := x.cfg
  sync := ⟨.seeking 0, zeroBuffer x.cfg⟩
  inq := []
  outq := []
  outOvf := false

/-- A new instance with the given configuration, every other element at its reset value (43 R120,
10 R29). -/
def constructBlock (c : CfgRecord) : Block where
  cfg := c
  sync := ⟨.seeking 0, zeroBuffer c⟩
  inq := []
  outq := []
  outOvf := false

/-- `CLOSE()` on an instance: a partial frame or a partial match is discarded, and the queues,
`out_ovf` and the buffer stay (43 R124). -/
def closeBlock (x : Block) : Block × Bool :=
  ({ x with sync := { x.sync with state := .seeking 0 } }, x.sync.state.mode == .capturing)

/-- `CONFIG(cfg)` (43 R120). A failed construction leaves no instance (43 R122); an instance that was
there before gives way to the new construction (log 6). -/
def construct (cfg : Option CfgRecord) (s : State) : State :=
  match checkConfig s.params cfg with
  | .ok c => s.answer (.built (constructBlock c)) (.configured none)
  | .error e => s.answer (.failed e) (.configured (some e))

/-- `CONFIG` (43 R120). -/
def execConfig (cfg : Option CfgRecord) (s : State) : Answer := .next (construct cfg s)

/-- `RESET` (43 R123). -/
def execReset (s : State) : Answer := onBlock s (fun x => (resetBlock x, .done))

/-- `CLOSE` (43 R124). -/
def execClose (s : State) : Answer :=
  onBlock s (fun x => ((closeBlock x).1, .closed (closeBlock x).2))

end Sys2Proof.Machine
end

