-- ==== Sys2Proof/Machine/Dispatch.lean ====
section
/-! DEFINITION. Each operation's meaning, one arm a constructor. -/

namespace Sys2Proof.Machine

open Sys2Proof

/-- What an operation does (00 R7). -/
def exec (i : Instr) (s : State) : Host.Outcome State Fault Refusal :=
  match i with
  | .reset => Sys2Proof.Machine.execReset s
  | .config cfg => Sys2Proof.Machine.execConfig cfg s
  | .crc16 bytes => Sys2Proof.Machine.execCrc16 bytes s
  | .processByte b => Sys2Proof.Machine.execProcessByte b s
  | .inEnq chunk => Sys2Proof.Machine.execInEnq chunk s
  | .inDeq => Sys2Proof.Machine.execInDeq s
  | .step => Sys2Proof.Machine.execStep s
  | .drain => Sys2Proof.Machine.execDrain s
  | .outEnq frame => Sys2Proof.Machine.execOutEnq frame s
  | .outDeq => Sys2Proof.Machine.execOutDeq s
  | .close => Sys2Proof.Machine.execClose s

end Sys2Proof.Machine
end

