-- ==== Sys2Proof/Machine/Ports.lean ====
section
/-! DEFINITION. The port binding: one clock cycle (30 R62 to R64). Each handshake is one operation. -/

namespace Sys2Proof.Machine

open Sys2Proof

/-- What the input signals of a cycle ask of an instance (30 R62, R63), decided from the state at the
start of the cycle (30 R64). -/
structure CyclePlan where
  /-- `STEP`: `run`, a byte waiting, and no `close`. -/
  doStep : Bool
  /-- `CLOSE`, which overrides `STEP`. -/
  doClose : Bool
  /-- `OUT_DEQ`: `out_valid` and `out_ready`. -/
  doOutDeq : Bool
  /-- `IN_ENQ [in_data]`: `in_valid` and `in_ready`. -/
  doInEnq : Bool
deriving DecidableEq, Repr

/-- The handshakes of a cycle without `rst` (30 R62, R63, R64). -/
def cyclePlan (p : Params) (x : Block) (i : PortsIn) : CyclePlan where
  doStep := i.run && !inEmpty x && !i.close
  doClose := i.close
  doOutDeq := !outEmpty x && i.outReady
  doInEnq := i.inValid && !inFull p x

/-- The first effect of a cycle: `CLOSE` or `STEP`, and the event of the `STEP` (30 R64).
Log 12. -/
def cycleEngine (p : Params) (plan : CyclePlan) (x : Block) : Block × Option Event :=
  if plan.doClose then ((closeBlock x).1, none)
  else if plan.doStep then engineStep p x
  else (x, none)

/-- The second effect of a cycle: `OUT_DEQ` (30 R64). -/
def cycleOutDeq (plan : CyclePlan) (x : Block) : Block :=
  if plan.doOutDeq then (dequeueFrame x).1 else x

/-- The third effect of a cycle: `IN_ENQ [in_data]` (30 R64). -/
def cycleInEnq (p : Params) (plan : CyclePlan) (i : PortsIn) (x : Block) : Block :=
  if plan.doInEnq then (enqueueChunk p x [i.inData]).1 else x

/-- The effects of a cycle on an instance, and the event of its `STEP`: `rst` overrides all; else
`STEP` (or `CLOSE`), then `OUT_DEQ`, then `IN_ENQ` (30 R62, R64). -/
def cycleBlock (p : Params) (x : Block) (i : PortsIn) : Block × Option Event :=
  if i.rst then (resetBlock x, none)
  else
    let plan := cyclePlan p x i
    let first := cycleEngine p plan x
    (cycleInEnq p plan i (cycleOutDeq plan first.1), first.2)

/-- An event that `evt_valid` announces: one other than `NONE` (30 R62). -/
def announcedEvent : Option Event → Option Event
  | none => none
  | some .none => none
  | some evt => some evt

/-- The output signals of a cycle of an instance (30 R62): the flags and the head Frame value at the
start of the cycle, and the event of the cycle's `STEP`. `evt_code` and `out_data` are free values
where they have no meaning (93 K19, log 10). -/
def cycleOutputs (p : Params) (n : Nat) (x : Block) (evt : Option Event) : PortsOut where
  cfgErr := cfgCode none
  inReady := !inFull p x
  inEmpty := inEmpty x
  evtValid := (announcedEvent evt).isSome
  evtCode := match announcedEvent evt with
    | some e => e.code
    | none => Config.freeEvtCode n
  outValid := !outEmpty x
  outData := match x.outq with
    | f :: _ => frameBus f
    | [] => Config.freeOutData n % 2 ^ (8 * x.cfg.payloadLen)
  outOvf := x.outOvf

/-- The output signals of a cycle with no instance: nothing is ready and nothing is valid (43 R122).
What the spec does not give is a free value (log 10). -/
def deadOutputs (n : Nat) (straps : CfgRecord) (cfgErr : BitVec 3) : PortsOut where
  cfgErr := cfgErr
  inReady := false
  inEmpty := Config.freeInEmpty n
  evtValid := false
  evtCode := Config.freeEvtCode n
  outValid := false
  outData := Config.freeOutData n % 2 ^ (8 * straps.payloadLen)
  outOvf := Config.freeOutOvf n

/-- A cycle with no instance: `rst` performs the `CONFIG` of the constants `N`, `SYNC`, `L` (30 R62:
"The first `rst` is the `CONFIG`"), and nothing else can happen (43 R122). Log 11. -/
def cycleUnbuilt (i : PortsIn) (s : State) : State :=
  if i.rst then construct (some s.straps) s else s

/-- One clock cycle (30 R62 to R64). Its result is the output signals. -/
def portCycle (i : PortsIn) (s : State) : State :=
  match s.inst with
  | .built x =>
    let after := cycleBlock s.params x i
    { s.answer (.built after.1) (.ports (cycleOutputs s.params s.portCycles x after.2)) with
      portCycles := s.portCycles + 1 }
  | .failed e =>
    { cycleUnbuilt i s with
      result := some (.ports (deadOutputs s.portCycles s.straps (cfgCode (some e))))
      portCycles := s.portCycles + 1 }
  | .unbuilt =>
    { cycleUnbuilt i s with
      result := some (.ports (deadOutputs s.portCycles s.straps (Config.freeCfgErr s.portCycles)))
      portCycles := s.portCycles + 1 }

end Sys2Proof.Machine
end

