-- ==== Sys2Proof/Machine/Step.lean ====
section
/-! DEFINITION. One step of the machine: the next item of the interleaving (20 R43). -/

namespace Sys2Proof.Machine

open Sys2Proof

/-- One step. With nothing pending no operation is invoked and the block stays as it is (60 R145,
70 R150). An operation's command is decoded and run; a reserved word is refused with
`ERR_ILLEGAL_OP` (60 R148). Log 3. -/
def step (s : State) : Host.Outcome State Fault Refusal :=
  match s.pending with
  | [] => .next s
  | .op c :: rest =>
    match decode c with
    | .ok i => exec i (s.took rest)
    | .error _ => .next (illegalCommand (s.took rest))
  | .cycle p :: rest => .next (portCycle p (s.took rest))
  | .drainTurn :: rest => drainTurn (s.took rest)

/-- The state in which the next step runs the command of an opcode-table word: an agent invokes it
next (log 3, log 5). -/
def State.withFetchWord (s : State) (nbits w : Nat) : State :=
  { s with pending := .op (tableCommand nbits w) :: s.pending }

end Sys2Proof.Machine
end

