-- ==== Sys2Proof/Machine/Instances.lean ====
section
/-! DEFINITION. Several instances side by side (43 R125, 10 R27): a list of machines, each with its own
state. Log 14. -/

namespace Sys2Proof.Machine

open Sys2Proof

/-- The instances that exist at once. -/
abbrev Fleet := List State

/-- A machine's answer put back in its place; the other instances are not touched (10 R27). -/
def Fleet.put (f : Fleet) (k : Nat) : Answer → Host.Outcome Fleet Fault Refusal
  | .next t => .next (f.set k t)
  | .fault r => .fault r
  | .refused r => .refused r

/-- An operation names one instance and affects only that one (43 R125). -/
def execOn (k : Nat) (i : Instr) (f : Fleet) : Host.Outcome Fleet Fault Refusal :=
  match f[k]? with
  | some s => f.put k (exec i s)
  | none => .refused .noInstance

/-- A step of one instance. -/
def stepOn (k : Nat) (f : Fleet) : Host.Outcome Fleet Fault Refusal :=
  match f[k]? with
  | some s => f.put k (step s)
  | none => .refused .noInstance

/-- One more instance, made by its own `CONFIG` under its own parameters (43 R125). Its port constants
are the record given to that `CONFIG`, so that an `rst` after a failed construction tries that record
again; where no record is given they are `resetCfg`. DESIGN CHOICE (unsafe), log 14: the spec ties the
constants of the port binding to one instance only (30 R62). -/
def addInstance (p : Params) (cfg : Option CfgRecord) (f : Fleet) : Fleet :=
  f ++ [construct cfg { State.powerOn with params := p, straps := cfg.getD resetCfg }]

end Sys2Proof.Machine
end

