-- ==== Sys2Proof/Machine/Traces.lean ====
section
/-! DEFINITION. Sequences of operations and what they return, the wire frame (30 R50), and the
pseudo-operations and text lines of traces (30 R65). -/

namespace Sys2Proof.Machine

open Sys2Proof

/-- The operations one after the other, with nothing in between: the state left and the results in
order (20 R43). It stops where an operation is refused. -/
def runAll : List Instr → State → Host.Outcome (State × List Result) Fault Refusal
  | [], s => .next (s, [])
  | i :: rest, s =>
    match exec i s with
    | .next t =>
      match runAll rest t with
      | .next (u, rs) => .next (u, t.result.toList ++ rs)
      | .fault r => .fault r
      | .refused r => .refused r
    | .fault r => .fault r
    | .refused r => .refused r

/-- `PROCESS_BYTE` of each byte in order: the instance left, and the events (30 R65, `FEED`). -/
def feedBlock (p : Params) : List Byte → Block → Block × List Event
  | [], x => (x, [])
  | b :: rest, x =>
    match processByte p x b with
    | (x', evt, _) =>
      match feedBlock p rest x' with
      | (x'', evts) => (x'', evt :: evts)

/-- A wire frame with a given checksum field: sync pattern, payload, checksum, high byte first
(30 R50, R53). -/
def wireFrameWith (c : CfgRecord) (payload : List Byte) (checksum : Word16) : List Byte :=
  c.syncPattern ++ payload ++ checksumField checksum

/-- A correct wire frame for a payload (30 R50, R53). -/
def wireFrame (c : CfgRecord) (payload : List Byte) : List Byte :=
  wireFrameWith c payload (crc16 payload)

/-- `PUSH <b>` (30 R65). -/
def pseudoPush (b : Byte) : List Instr := [.inEnq [b]]

/-- `FEED <b0> ... <bk>` (30 R65). -/
def pseudoFeed (bytes : List Byte) : List Instr := bytes.map .processByte

/-- `SEND <p0> ... <pL-1>` for an instance of the given configuration (30 R65). -/
def pseudoSend (c : CfgRecord) (payload : List Byte) : List Instr := pseudoFeed (wireFrame c payload)

/-- The event a `PROCESS_BYTE` or a `STEP` returned (30 R56). -/
def Result.event : Result → Option Event
  | .processed evt _ => some evt
  | .stepped evt => evt
  | .done => none
  | .configured _ => none
  | .checksum _ => none
  | .enqueued _ => none
  | .byteOut _ => none
  | .drained _ => none
  | .frameOut _ => none
  | .closed _ => none
  | .illegalOp => none
  | .ports _ => none

/-! ### Text lines (30 R65) -/

/-- One hex digit. -/
def hexDigit (n : Nat) : Char := "0123456789ABCDEF".toList.getD n '?'

/-- A byte as two hex digits. -/
def byteText (b : Byte) : String :=
  String.ofList [hexDigit (b.toNat / 16), hexDigit (b.toNat % 16)]

/-- A mnemonic followed by bytes. -/
def lineText (word : String) (bytes : List Byte) : String :=
  String.intercalate " " (word :: bytes.map byteText)

/-- A depth in a `CONFIG` line: a missing one is `INF`. -/
def depthText (name : String) : Capacity → String
  | .fin n => " " ++ name ++ "=" ++ toString n
  | .inf => ""

/-- The text line of an operation, under given depths, where 30 R65 has one for it. -/
def Instr.text (p : Params) : Instr → Option String
  | .reset => some "RESET"
  | .config (some c) =>
    some ("CONFIG N=" ++ toString c.n ++ " SYNC=" ++
      String.intercalate "," (c.syncPattern.map byteText) ++ " L=" ++ toString c.payloadLen ++
      depthText "IN_DEPTH" p.inDepth ++ depthText "OUT_DEPTH" p.outDepth)
  | .config none => none
  | .crc16 bytes => some (lineText "CRC16" bytes)
  | .processByte b => some (lineText "PB" [b])
  | .inEnq chunk => some (lineText "ENQ" chunk)
  | .inDeq => some "IDEQ"
  | .step => some "STEP"
  | .drain => some "DRAIN"
  | .outEnq _ => none
  | .outDeq => some "DEQ"
  | .close => some "CLOSE"

end Sys2Proof.Machine
end

