-- ==== Sys2Proof/Machine/History.lean ====
section
/-! DEFINITION. The part of the invariants of 10 R19 that speaks of the past: which bytes a capture has
received (item 4) and which frames were verified (item 6). The past is no state of the block (10 R27):
it is kept beside the machine and recorded from the bytes processed, never from `payloadBuffer`. -/

namespace Sys2Proof.Machine

open Sys2Proof

/-- What has happened to an instance since its construction or its last `RESET`. -/
structure History where
  /-- The payload bytes received since the sync pattern last completed, in order. -/
  captured : List Byte
  /-- The payloads whose two checksum bytes equalled their CRC16, in order. -/
  verified : List Frame
deriving DecidableEq, Repr

/-- The history of a new instance. -/
def History.fresh : History := ⟨[], []⟩

/-- One byte of the stream, in the role the synchronizer state gives it (41 R91): the last sync byte
begins a capture, a payload byte is received, and the second checksum byte verifies what was received
or does not. -/
def History.byte (c : CfgRecord) (y : SyncState) (b : Byte) (h : History) : History :=
  match y with
  | .seeking k =>
    if c.syncPattern[k]? = some b ∧ k + 1 = c.n then { h with captured := [] } else h
  | .capturing fill crcFill crcHi =>
    if fill < c.payloadLen then { h with captured := h.captured ++ [b] }
    else if crcFill = 0 then h
    else if receivedChecksum crcHi b = crc16 h.captured then
      { h with verified := h.verified ++ [h.captured] }
    else h

/-- The bytes an instance processes, one after the other. -/
def History.bytes (p : Params) : List Byte → Block → History → History
  | [], _, h => h
  | b :: rest, x, h =>
    History.bytes p rest (processByte p x b).1 (h.byte x.cfg x.sync.state b)

/-- What an operation on an instance adds to its history: the bytes it puts through the synchronizer;
`CONFIG` and `RESET` begin a new one (43 R120, R123). -/
def History.operation (p : Params) (x : Block) (i : Instr) (h : History) : History :=
  match i with
  | .reset => History.fresh
  | .config _ => History.fresh
  | .crc16 _ => h
  | .processByte b => History.bytes p [b] x h
  | .inEnq _ => h
  | .inDeq => h
  | .step => History.bytes p (x.inq.take 1) x h
  | .drain => History.bytes p x.inq x h
  | .outEnq _ => h
  | .outDeq => h
  | .close => h

/-- What a clock cycle adds: the byte of its `STEP`, if it has one (30 R62, R64). -/
def History.cycle (p : Params) (x : Block) (i : PortsIn) (h : History) : History :=
  if i.rst then History.fresh
  else if i.run && !i.close then History.bytes p (x.inq.take 1) x h
  else h

/-- The history after the next step of a machine. Where there was no instance a new one begins. -/
def History.after (s : State) (h : History) : History :=
  match s.pending, s.inst with
  | .op c :: _, .built x =>
    match decode c with
    | .ok i => History.operation s.params x i h
    | .error _ => h
  | .cycle i :: _, .built x => History.cycle s.params x i h
  | .drainTurn :: _, .built x => History.bytes s.params (x.inq.take 1) x h
  | [], _ => h
  | _ :: _, .failed _ => History.fresh
  | _ :: _, .unbuilt => History.fresh

/-- 10 R19 item 4, whole: during a capture `payloadBuffer[i]` for `i < payloadFill` holds the `i`-th
byte received since the sync pattern completed, and `0x00` above. -/
def Block.captureAgrees (x : Block) (h : History) : Bool :=
  match x.sync.state with
  | .seeking _ => true
  | .capturing fill _ _ =>
    decide (h.captured.length = fill) &&
      decide (x.sync.payloadBuffer = h.captured ++ List.replicate (x.cfg.payloadLen - fill) 0)

/-- 10 R19 item 6, whole: every entry of `outq` has `L` bytes and its checksum was verified. -/
def Block.framesVerified (x : Block) (h : History) : Bool :=
  x.outq.all (fun f => decide (f.length = x.cfg.payloadLen) && decide (f ∈ h.verified))

/-- 10 R19 item 4 on the machine; there is nothing to ask where there is no instance. -/
def State.captureAgrees (s : State) (h : History) : Bool :=
  match s.inst with
  | .built x => x.captureAgrees h
  | .failed _ => true
  | .unbuilt => true

/-- 10 R19 item 6 on the machine; there is nothing to ask where there is no instance. -/
def State.framesVerified (s : State) (h : History) : Bool :=
  match s.inst with
  | .built x => x.framesVerified h
  | .failed _ => true
  | .unbuilt => true

end Sys2Proof.Machine
end

