-- ==== Sys2Proof/Safety.lean ====
section
/-! DEFINITION. What a good state is (10 R19), who issues which operation (60 R143), and when the
block is quiescent (70 R153). -/

namespace Sys2Proof.Machine

open Sys2Proof

/-- 10 R19, items 1 to 3 and the part of item 4 that does not speak of the past, for a synchronizer of
the given configuration: counters in range, no checksum byte before the payload is complete, a buffer
of `L` bytes that is zero above `payloadFill` during a capture. Item 4 whole is
`Block.captureAgrees`. -/
def Synchronizer.wf (c : CfgRecord) (y : Synchronizer) : Bool :=
  decide (y.payloadBuffer.length = c.payloadLen) &&
  match y.state with
  | .seeking k => decide (k < c.n)
  | .capturing fill crcFill _ =>
    decide (fill ≤ c.payloadLen) && (decide (fill = c.payloadLen) || decide (crcFill = 0)) &&
      decide (y.payloadBuffer.drop fill = List.replicate (c.payloadLen - fill) 0)

/-- The invariants of 10 R19 on an instance: a legal configuration, a good synchronizer, queues within
their capacities, and every entry of `outq` exactly `L` bytes long. That its checksum was verified
(item 6) is `Block.framesVerified`. -/
def Block.wf (p : Params) (x : Block) : Bool :=
  x.cfg.wellFormed p && x.sync.wf x.cfg && p.inDepth.admits x.inq.length &&
    p.outDepth.admits x.outq.length && x.outq.all (fun f => decide (f.length = x.cfg.payloadLen))

/-- The invariants of 10 R19 on the machine; there is nothing to ask where there is no instance. -/
def State.wf (s : State) : Bool :=
  match s.inst with
  | .built x => x.wf s.params
  | .failed _ => true
  | .unbuilt => true

/-- The roles (00 R6). -/
inductive Role where
  | owner
  | producer
  | engine
  | consumer
deriving DecidableEq, Repr

/-- Who issues an operation (00 R7, 60 R143). -/
def Instr.role : Instr → Role
  | .reset => .owner
  | .config _ => .owner
  | .crc16 _ => .engine
  | .processByte _ => .engine
  | .inEnq _ => .producer
  | .inDeq => .engine
  | .step => .engine
  | .drain => .engine
  | .outEnq _ => .engine
  | .outDeq => .consumer
  | .close => .owner

/-- The operations that are invoked only from inside others (30 R59). -/
def Instr.internal : Instr → Bool
  | .reset => false
  | .config _ => false
  | .crc16 _ => true
  | .processByte _ => false
  | .inEnq _ => false
  | .inDeq => true
  | .step => false
  | .drain => false
  | .outEnq _ => true
  | .outDeq => false
  | .close => false

/-- An input in which no internal operation is issued from outside (30 R59). -/
def Input.external : Input → Bool
  | .op c =>
    match decode c with
    | .ok i => !Instr.internal i
    | .error _ => true
  | .cycle _ => true
  | .drainTurn => true

/-- Quiescent: `inq` is empty, so the engine has no enabled step (70 R153). -/
def Block.quiescent (x : Block) : Bool := x.inq.isEmpty

end Sys2Proof.Machine
end

