-- ==== Sys2Proof/Certificates/Slice0/Obligations.lean ====
section
/-! DEFINITION. The statements for the provers, family by family. `s.inst = .built x` says that the
machine `s` holds the instance `x`. A next state written out as `{ s with … }` is also the frame:
every field it does not name is unchanged. -/

open Sys2Proof Sys2Proof.Machine

/-! ### Lifecycle -/

/-- 10 R29: after a successful `CONFIG` and after `RESET` the instance is the table of reset values,
with the configuration as given to `CONFIG` and kept by `RESET`. That `CONFIG` does so where an instance
exists already, replacing it, is the model's reading (log 6). -/
def Obligations.ResetStateTable : Prop :=
  (∀ (s : State) (c : CfgRecord), c.wellFormed s.params = true →
    ∃ t, exec (.config (some c)) s = .next t ∧
      t.inst = .built ⟨c, ⟨.seeking 0, List.replicate c.payloadLen 0x00⟩, [], [], false⟩) ∧
  (∀ (s : State) (x : Block), s.inst = .built x →
    ∃ t, exec .reset s = .next t ∧
      t.inst = .built ⟨x.cfg, ⟨.seeking 0, List.replicate x.cfg.payloadLen 0x00⟩, [], [], false⟩)

/-- The model's choice (log 1, 2, 3): the machine right after reset holds an instance in the reset
state of 10 R29 with `SYNC = AA 55 C3 3C` and `L = 128`, unbounded queues, and nothing pending. -/
def Obligations.ResetHoldsNamedConfiguration : Prop :=
  State.reset.inst = .built ⟨⟨[0xAA, 0x55, 0xC3, 0x3C], 128⟩,
    ⟨.seeking 0, List.replicate 128 0x00⟩, [], [], false⟩ ∧
  State.reset.params = ⟨.inf, .inf, .inf, .inf⟩ ∧ State.reset.pending = [] ∧
  State.reset.result = none ∧ State.reset.draining = none

/-- 43 R121, R120, R122, 30 R59: the checks of `CONFIG` in their order, with the code of the first that
fails and no instance then, and a fresh instance where none fails. Its word is `0x100`. That this is so
where an instance exists already, a failed `CONFIG` leaving none, is the model's reading (log 6). -/
def Obligations.ConfigChecksThenConstructs : Prop :=
  (∀ cfg, decode ⟨0x100, [], cfg⟩ = .ok (.config cfg)) ∧
  ∀ s : State,
    exec (.config none) s = .next { s with
      inst := .failed .errNullConfig, result := some (.configured (some .errNullConfig)) } ∧
    ∀ c : CfgRecord, exec (.config (some c)) s =
      if c.syncPattern.length = 0 then .next { s with
        inst := .failed .errZeroSync, result := some (.configured (some .errZeroSync)) }
      else if c.payloadLen = 0 then .next { s with
        inst := .failed .errZeroPayload, result := some (.configured (some .errZeroPayload)) }
      else if s.params.nMax.admits c.syncPattern.length = false ∨
          s.params.lMax.admits c.payloadLen = false then .next { s with
        inst := .failed .errResource, result := some (.configured (some .errResource)) }
      else .next { s with
        inst := .built ⟨c, ⟨.seeking 0, List.replicate c.payloadLen 0x00⟩, [], [], false⟩
        result := some (.configured none) }

/-- 43 R122, 60 R147, 92 D22: with no instance every operation but `CONFIG` is refused (the model
includes `CRC16`, log 7). -/
def Obligations.NoInstanceRefusesOperations : Prop :=
  ∀ (s : State) (i : Instr), (∀ x, s.inst ≠ .built x) → (∀ cfg, i ≠ .config cfg) →
    exec i s = .refused .noInstance

/-- 43 R123: `RESET` brings every element but the configuration to its reset value, returns nothing,
and leaves the instance a `CONFIG` of the same record constructs. Its word is `0x000`. -/
def Obligations.ResetRestoresInstance : Prop :=
  decode ⟨0x000, [], none⟩ = .ok .reset ∧
  ∀ (s : State) (x : Block), s.inst = .built x →
    exec .reset s = .next { s with
      inst := .built ⟨x.cfg, ⟨.seeking 0, List.replicate x.cfg.payloadLen 0x00⟩, [], [], false⟩
      result := some .done } ∧
    (x.cfg.wellFormed s.params = true → ∀ t u, exec .reset s = .next t →
      exec (.config (some x.cfg)) s = .next u → t.inst = u.inst)

/-- 43 R124: `CLOSE` goes to `Seeking(0)`, says whether a capture was under way, and touches neither
queue nor `out_ovf` nor the buffer. Its word is `0xA00`. -/
def Obligations.CloseDiscardsPartialFrame : Prop :=
  decode ⟨0xA00, [], none⟩ = .ok .close ∧
  ∀ (s : State) (x : Block), s.inst = .built x →
    exec .close s = .next { s with
      inst := .built { x with sync := ⟨.seeking 0, x.sync.payloadBuffer⟩ }
      result := some (.closed (match x.sync.state with
        | .seeking _ => false
        | .capturing _ _ _ => true)) }

/-- 20 R48, 10 R11: no operation writes the configuration after `CONFIG`, nor the open parameters: a
step whose next input is not a `CONFIG` keeps the instance's configuration. -/
def Obligations.ConfigurationIsImmutable : Prop :=
  ∀ s t : State, step s = .next t →
    t.params = s.params ∧ t.straps = s.straps ∧
    ∀ x, s.inst = .built x →
      (∀ c cfg rest, s.pending = .op c :: rest → decode c ≠ .ok (.config cfg)) →
      ∃ y, t.inst = .built y ∧ y.cfg = x.cfg

/-! ### The CRC engine -/

/-- 40 R71, R72: a byte goes into bits 15..8 of the register, bits 7..0 unchanged, then 8 rounds; in
one round, on numbers, the bit tested is bit 15 before the shift, the shift drops it, and `0x1021` is
applied after the shift. -/
def Obligations.CrcRoundAndUpdate : Prop :=
  (∀ r : Word16, (crcRound r).toNat =
    if r.toNat < 0x8000 then 2 * r.toNat else (2 * r.toNat - 0x10000) ^^^ 0x1021) ∧
  ∀ (r : Word16) (b : Byte),
    crcUpdate r b = crcRound^[8] (BitVec.ofNat 16 (r.toNat ^^^ (b.toNat * 256)))

/-- 40 R70: `CRC16` starts from `0xFFFF`, folds its bytes in order and returns the register; it reads
and writes no state. Its word is `0x200`. -/
def Obligations.CrcFoldsBytesInOrder : Prop :=
  (∀ bytes, decode ⟨0x200, bytes, none⟩ = .ok (.crc16 bytes)) ∧
  ∀ (s : State) (x : Block) (bytes : List Byte), s.inst = .built x →
    exec (.crc16 bytes) s = .next { s with
      result := some (.checksum (bytes.foldl crcUpdate 0xFFFF)) }

/-- 40 R75: the checksum of a concatenation goes on from the checksum of its first part. -/
def Obligations.CrcIncremental : Prop :=
  ∀ a c : List Byte, crc16 (a ++ c) = c.foldl crcUpdate (crc16 a)

/-- 40 R77: the check value of the ASCII bytes "123456789". -/
def Obligations.CrcCheckValue : Prop :=
  crc16 [0x31, 0x32, 0x33, 0x34, 0x35, 0x36, 0x37, 0x38, 0x39] = 0x29B1

/-- 40 R76: feeding a payload's two checksum bytes after it leaves the register at `0x0000`. -/
def Obligations.CrcResidueIsZero : Prop :=
  ∀ p : List Byte, crc16 (p ++ checksumField (crc16 p)) = 0x0000

/-- 40 R73: all 65536 values are possible results. -/
def Obligations.CrcReachesEveryValue : Prop := ∀ v : Word16, ∃ p : List Byte, crc16 p = v

/-! ### PROCESS_BYTE, arm by arm -/

/-- 41 R81: arm S-match. -/
def Obligations.ProcessByteSMatch : Prop :=
  ∀ (s : State) (x : Block) (k : Nat) (b : Byte), s.inst = .built x → x.sync.state = .seeking k →
    x.cfg.syncPattern[k]? = some b → k + 1 < x.cfg.syncPattern.length →
    exec (.processByte b) s = .next { s with
      inst := .built { x with sync := ⟨.seeking (k + 1), x.sync.payloadBuffer⟩ }
      result := some (.processed .none none) }

/-- 41 R82: arm S-complete: capture begins with a zeroed buffer of `L` bytes. -/
def Obligations.ProcessByteSComplete : Prop :=
  ∀ (s : State) (x : Block) (k : Nat) (b : Byte), s.inst = .built x → x.sync.state = .seeking k →
    x.cfg.syncPattern[k]? = some b → k + 1 = x.cfg.syncPattern.length →
    exec (.processByte b) s = .next { s with
      inst := .built { x with
        sync := ⟨.capturing 0 0 0x00, List.replicate x.cfg.payloadLen 0x00⟩ }
      result := some (.processed .none none) }

/-- 41 R83: arm S-mismatch: the search restarts at index 0, whatever the byte. -/
def Obligations.ProcessByteSMismatch : Prop :=
  ∀ (s : State) (x : Block) (k : Nat) (b : Byte), s.inst = .built x → x.sync.state = .seeking k →
    k < x.cfg.syncPattern.length → x.cfg.syncPattern[k]? ≠ some b →
    exec (.processByte b) s = .next { s with
      inst := .built { x with sync := ⟨.seeking 0, x.sync.payloadBuffer⟩ }
      result := some (.processed .none none) }

/-- 41 R95: after a mismatch at `k > 0` the search restarts at 0 even where the byte equals
`SYNC[0]`. -/
def Obligations.NoFalseRestartAdvantage : Prop :=
  ∀ (s : State) (x : Block) (k : Nat) (b : Byte), s.inst = .built x → x.sync.state = .seeking k →
    0 < k → k < x.cfg.syncPattern.length → x.cfg.syncPattern[k]? ≠ some b →
    x.cfg.syncPattern[0]? = some b →
    ∃ t y, exec (.processByte b) s = .next t ∧ t.inst = .built y ∧ y.sync.state = .seeking 0

/-- 41 R84: arm C-payload: the byte is stored at `payloadFill`, which goes up by one. -/
def Obligations.ProcessByteCPayload : Prop :=
  ∀ (s : State) (x : Block) (fill : Nat) (crcFill : Fin 2) (crcHi b : Byte), s.inst = .built x →
    x.sync.state = .capturing fill crcFill crcHi → fill < x.cfg.payloadLen →
    exec (.processByte b) s = .next { s with
      inst := .built { x with
        sync := ⟨.capturing (fill + 1) crcFill crcHi, x.sync.payloadBuffer.set fill b⟩ }
      result := some (.processed .none none) }

/-- 41 R85: arm C-check1: the first checksum byte is kept, and `payloadFill` stays at `L`. -/
def Obligations.ProcessByteCCheck1 : Prop :=
  ∀ (s : State) (x : Block) (crcHi b : Byte), s.inst = .built x →
    x.sync.state = .capturing x.cfg.payloadLen 0 crcHi →
    exec (.processByte b) s = .next { s with
      inst := .built { x with
        sync := ⟨.capturing x.cfg.payloadLen 1 b, x.sync.payloadBuffer⟩ }
      result := some (.processed .none none) }

/-- 41 R86 with R87, R88, R89: arm C-check2: the received checksum, high byte first, is compared with
that of the `L` payload bytes; a match appends the frame, or drops it and sets `out_ovf` where `outq`
is full; a mismatch delivers nothing; the state is `Seeking(0)` whatever the outcome. -/
def Obligations.ProcessByteCCheck2 : Prop :=
  ∀ (s : State) (x : Block) (crcHi b : Byte), s.inst = .built x →
    x.sync.payloadBuffer.length = x.cfg.payloadLen →
    x.sync.state = .capturing x.cfg.payloadLen 1 crcHi →
    exec (.processByte b) s =
      if crcHi.toNat * 256 + b.toNat ≠ (crc16 x.sync.payloadBuffer).toNat then .next { s with
        inst := .built { x with sync := ⟨.seeking 0, x.sync.payloadBuffer⟩ }
        result := some (.processed .crcError none) }
      else if s.params.outDepth.admits (x.outq.length + 1) = true then .next { s with
        inst := .built { x with
          sync := ⟨.seeking 0, x.sync.payloadBuffer⟩
          outq := x.outq ++ [x.sync.payloadBuffer] }
        result := some (.processed .frameValid (some x.sync.payloadBuffer)) }
      else .next { s with
        inst := .built { x with sync := ⟨.seeking 0, x.sync.payloadBuffer⟩, outOvf := true }
        result := some (.processed .frameDropped (some x.sync.payloadBuffer)) }

/-- 41 R80, 60 R140: `PROCESS_BYTE` takes every byte in every state. It leaves the configuration and
`inq` alone; it hands out a frame exactly with `FRAME_VALID` and `FRAME_DROPPED`; `outq` gains that
frame with `FRAME_VALID` and is unchanged otherwise; `out_ovf` is set with `FRAME_DROPPED` and
unchanged otherwise; and an event other than `NONE` leaves the state `Seeking(0)`. Its word is
`0x300` with the byte in `imm`. -/
def Obligations.ProcessByteTotalWithFrame : Prop :=
  (∀ b : Byte, decode ⟨BitVec.ofNat 12 (0x300 + b.toNat), [], none⟩ = .ok (.processByte b)) ∧
  ∀ (s : State) (x : Block) (b : Byte), s.inst = .built x →
    ∃ y evt frame, exec (.processByte b) s = .next { s with
        inst := .built y, result := some (.processed evt frame) } ∧
      y.cfg = x.cfg ∧ y.inq = x.inq ∧
      (frame.isSome = true ↔ evt = .frameValid ∨ evt = .frameDropped) ∧
      (evt = .frameValid → y.outq = x.outq ++ frame.toList) ∧
      (evt ≠ .frameValid → y.outq = x.outq) ∧
      (evt = .frameDropped → y.outOvf = true) ∧
      (evt ≠ .frameDropped → y.outOvf = x.outOvf) ∧
      (evt ≠ .none → y.sync = ⟨.seeking 0, x.sync.payloadBuffer⟩)

/-- 10 R19 item 6, 41 R87: a frame enters `outq` by `PROCESS_BYTE` only in the checksum stage, only as
a copy of the buffer, and only where the two checksum bytes are the CRC of it. -/
def Obligations.OnlyVerifiedFramesAreEmitted : Prop :=
  ∀ (s t : State) (x y : Block) (b : Byte), s.inst = .built x → x.wf s.params = true →
    exec (.processByte b) s = .next t → t.inst = .built y → y.outq ≠ x.outq →
    ∃ crcHi, x.sync.state = .capturing x.cfg.payloadLen 1 crcHi ∧
      receivedChecksum crcHi b = crc16 x.sync.payloadBuffer ∧
      x.sync.payloadBuffer.length = x.cfg.payloadLen ∧
      y.outq = x.outq ++ [x.sync.payloadBuffer]

/-! ### The synchronizer over runs of bytes -/

/-- 30 R65: `FEED` is `PROCESS_BYTE` of each byte in turn, and `feedBlock` is its effect on the
instance: the statements about `feedBlock` are statements about runs of operations. -/
def Obligations.FeedRunsProcessByte : Prop :=
  ∀ (bytes : List Byte) (s : State) (x : Block), s.inst = .built x →
    ∃ t rs, runAll (pseudoFeed bytes) s = .next (t, rs) ∧
      t = { s with inst := .built (feedBlock s.params bytes x).1, result := t.result } ∧
      rs.map Result.event = (feedBlock s.params bytes x).2.map some

/-- 41 R93: a whole wire frame from `Seeking(0)`: the sync bytes end in `Capturing(0, 0, 00)` with a
zeroed buffer, the payload is stored, the next byte is kept, the last decides, and the state is
`Seeking(0)` again; every event but the last is `NONE`. -/
def Obligations.WholeWireFrameFromSeekingZero : Prop :=
  ∀ (p : Params) (x : Block) (payload : List Byte) (c1 c2 : Byte), x.wf p = true →
    x.sync.state = .seeking 0 → payload.length = x.cfg.payloadLen →
    feedBlock p x.cfg.syncPattern x =
      ({ x with sync := ⟨.capturing 0 0 0x00, List.replicate x.cfg.payloadLen 0x00⟩ },
        List.replicate x.cfg.n .none) ∧
    feedBlock p (x.cfg.syncPattern ++ payload) x =
      ({ x with sync := ⟨.capturing x.cfg.payloadLen 0 0x00, payload⟩ },
        List.replicate (x.cfg.n + x.cfg.payloadLen) .none) ∧
    feedBlock p (x.cfg.syncPattern ++ payload ++ [c1]) x =
      ({ x with sync := ⟨.capturing x.cfg.payloadLen 1 c1, payload⟩ },
        List.replicate (x.cfg.n + x.cfg.payloadLen + 1) .none) ∧
    feedBlock p (x.cfg.syncPattern ++ payload ++ [c1, c2]) x =
      if c1.toNat * 256 + c2.toNat ≠ (crc16 payload).toNat then
        ({ x with sync := ⟨.seeking 0, payload⟩ },
          List.replicate (x.cfg.n + x.cfg.payloadLen + 1) .none ++ [.crcError])
      else if p.outDepth.admits (x.outq.length + 1) = true then
        ({ x with sync := ⟨.seeking 0, payload⟩, outq := x.outq ++ [payload] },
          List.replicate (x.cfg.n + x.cfg.payloadLen + 1) .none ++ [.frameValid])
      else
        ({ x with sync := ⟨.seeking 0, payload⟩, outOvf := true },
          List.replicate (x.cfg.n + x.cfg.payloadLen + 1) .none ++ [.frameDropped])

/-- 41 R96: from the reset state, a payload sent with its sync pattern and its checksum, high byte
first, comes out as a valid Frame on the last byte, for every configuration and payload. -/
def Obligations.RoundTripFromReset : Prop :=
  ∀ (s : State) (c : CfgRecord) (payload : List Byte), c.wellFormed s.params = true →
    s.params.wellFormed = true → s.inst = .built (Block.fresh c) → payload.length = c.payloadLen →
    ∃ t, runAll (pseudoSend c payload) s = .next (t,
        List.replicate (c.n + c.payloadLen + 1) (.processed .none none) ++
          [.processed .frameValid (some payload)]) ∧
      t.inst = .built ⟨c, ⟨.seeking 0, payload⟩, [], [payload], false⟩

/-- 41 R97: a frame with a wrong checksum is discarded with `CRC_ERROR` on byte `N + L + 2`, and the
correct frame after it is emitted on byte `2 * (N + L + 2)`. -/
def Obligations.ResyncAfterCorruption : Prop :=
  ∀ (s : State) (c : CfgRecord) (first second : List Byte) (wrong : Word16),
    c.wellFormed s.params = true → s.params.wellFormed = true →
    s.inst = .built (Block.fresh c) → first.length = c.payloadLen →
    second.length = c.payloadLen → wrong ≠ crc16 first →
    ∃ t, runAll (pseudoFeed (wireFrameWith c first wrong ++ wireFrame c second)) s = .next (t,
        List.replicate (c.n + c.payloadLen + 1) (.processed .none none) ++
          [.processed .crcError none] ++
          List.replicate (c.n + c.payloadLen + 1) (.processed .none none) ++
          [.processed .frameValid (some second)]) ∧
      t.inst = .built ⟨c, ⟨.seeking 0, second⟩, [], [second], false⟩

/-- 41 R94: whenever a byte begins a capture, the last `N` bytes processed, that byte included, are
exactly the sync pattern, and each of them was processed in `Seeking` at its own index. -/
def Obligations.CaptureBeginsOnlyAfterSyncPattern : Prop :=
  ∀ (p : Params) (x : Block) (bytes : List Byte) (b : Byte), x.wf p = true →
    x.sync.state = .seeking 0 →
    (feedBlock p bytes x).1.sync.state.mode = .seeking →
    (processByte p (feedBlock p bytes x).1 b).1.sync.state.mode = .capturing →
    x.cfg.syncPattern <:+ bytes ++ [b] ∧
    ∀ j, j < x.cfg.n →
      (feedBlock p (bytes.take (bytes.length + 1 - x.cfg.n + j)) x).1.sync.state = .seeking j

/-- 41 R90: once `Capturing` is entered exactly `L + 2` further bytes are consumed before the block is
in `Seeking` again, whatever their values; and the run, instance and events, is the same for every
sync pattern but for the pattern itself. -/
def Obligations.CaptureConsumesExactlyItsBytes : Prop :=
  ∀ (p : Params) (x : Block) (crcHi : Byte) (bytes : List Byte),
    x.sync.state = .capturing 0 0 crcHi → bytes.length = x.cfg.payloadLen + 2 →
    (∀ m, m < x.cfg.payloadLen + 2 →
      (feedBlock p (bytes.take m) x).1.sync.state.mode = .capturing) ∧
    (feedBlock p bytes x).1.sync.state = .seeking 0 ∧
    ∀ pattern : List Byte, feedBlock p bytes { x with cfg := ⟨pattern, x.cfg.payloadLen⟩ } =
      ({ (feedBlock p bytes x).1 with cfg := ⟨pattern, x.cfg.payloadLen⟩ }, (feedBlock p bytes x).2)

/-- 41 R98: from any state at most `L + 2` further bytes bring the block back to `Seeking`. -/
def Obligations.AlwaysReturnsToSeeking : Prop :=
  ∀ (p : Params) (x : Block) (bytes : List Byte), x.wf p = true →
    bytes.length = x.cfg.payloadLen + 2 →
    ∃ m, m ≤ x.cfg.payloadLen + 2 ∧
      (feedBlock p (bytes.take m) x).1.sync.state.mode = .seeking

/-- 70 R163: a sync pattern that starts at a mismatching byte is missed. Where the pattern's first
byte occurs nowhere else in it, that byte sent once more before the pattern hides the pattern. -/
def Obligations.RestartWithoutOverlapMissesPattern : Prop :=
  ∀ (p : Params) (x : Block) (a : Byte) (rest : List Byte), x.sync.state = .seeking 0 →
    x.cfg.syncPattern = a :: rest → rest ≠ [] → a ∉ rest →
    feedBlock p (a :: x.cfg.syncPattern) x =
      ({ x with sync := ⟨.seeking 0, x.sync.payloadBuffer⟩ },
        List.replicate (x.cfg.n + 1) .none)

/-! ### The queues and the engine -/

/-- 42 R100: the chunk is appended whole where it fits, and refused whole with `ERR_FULL` where it does
not; the empty chunk changes nothing. Its word is `0x400`. -/
def Obligations.InEnqTakesAllOrNothing : Prop :=
  (∀ bytes, decode ⟨0x400, bytes, none⟩ = .ok (.inEnq bytes)) ∧
  ∀ (s : State) (x : Block) (chunk : List Byte), s.inst = .built x →
    exec (.inEnq chunk) s =
      if s.params.inDepth.admits (x.inq.length + chunk.length) = true then .next { s with
        inst := .built { x with inq := x.inq ++ chunk }, result := some (.enqueued true) }
      else .next { s with result := some (.enqueued false) }

/-- 42 R101: the oldest byte leaves, or `EMPTY` and nothing changes. Its word is `0x500`. -/
def Obligations.InDeqRemovesOldestByte : Prop :=
  decode ⟨0x500, [], none⟩ = .ok .inDeq ∧
  ∀ (s : State) (x : Block), s.inst = .built x →
    exec .inDeq s = match x.inq with
      | [] => .next { s with result := some (.byteOut none) }
      | b :: rest => .next { s with
          inst := .built { x with inq := rest }, result := some (.byteOut (some b)) }

/-- 42 R102: a Frame value of `L` bytes is appended where there is room, and `ERR_FULL` leaves `outq`
as it is. An operand that does not have `L` bytes is refused (60 R147, 30 R61). Its word is `0x800`
(30 R59). -/
def Obligations.OutEnqAppendsFrame : Prop :=
  (∀ bytes, decode ⟨0x800, bytes, none⟩ = .ok (.outEnq bytes)) ∧
  ∀ (s : State) (x : Block) (frame : Frame), s.inst = .built x →
    (frame.length = x.cfg.payloadLen →
      exec (.outEnq frame) s =
        if s.params.outDepth.admits (x.outq.length + 1) = true then .next { s with
          inst := .built { x with outq := x.outq ++ [frame] }, result := some (.enqueued true) }
        else .next { s with result := some (.enqueued false) }) ∧
    (frame.length ≠ x.cfg.payloadLen → exec (.outEnq frame) s = .refused .frameLength)

/-- 42 R103: the oldest Frame value leaves, or `EMPTY` and nothing changes; `out_ovf` is not cleared.
Its word is `0x900`. -/
def Obligations.OutDeqRemovesOldestFrame : Prop :=
  decode ⟨0x900, [], none⟩ = .ok .outDeq ∧
  ∀ (s : State) (x : Block), s.inst = .built x →
    exec .outDeq s = match x.outq with
      | [] => .next { s with result := some (.frameOut none) }
      | f :: rest => .next { s with
          inst := .built { x with outq := rest }, result := some (.frameOut (some f)) }

/-- 42 R104: `STEP` is `IN_DEQ`, and where it returned a byte, `PROCESS_BYTE` of that byte; it returns
the event. Its word is `0x600`. -/
def Obligations.StepIsDequeueThenProcess : Prop :=
  decode ⟨0x600, [], none⟩ = .ok .step ∧
  ∀ (s : State) (x : Block), s.inst = .built x →
    (x.inq = [] → exec .step s = .next { s with result := some (.stepped none) }) ∧
    ∀ b rest, x.inq = b :: rest →
      ∃ t u evt frame, exec .inDeq s = .next t ∧ t.result = some (.byteOut (some b)) ∧
        exec (.processByte b) t = .next u ∧ u.result = some (.processed evt frame) ∧
        exec .step s = .next { u with result := some (.stepped (some evt)) }

/-- 42 R105: `DRAIN` is `STEP` repeated until it returns `EMPTY`, and returns the events in order: the
execution in which no other agent acts between its steps (log 9). Its word is `0x700`. -/
def Obligations.DrainIsRepeatedStep : Prop :=
  decode ⟨0x700, [], none⟩ = .ok .drain ∧
  ∀ (s : State) (x : Block), s.inst = .built x →
    (x.inq = [] → exec .drain s = .next { s with result := some (.drained []) }) ∧
    (x.inq ≠ [] →
      ∃ t u evt evts, exec .step s = .next t ∧ t.result = some (.stepped (some evt)) ∧
        exec .drain t = .next u ∧ u.result = some (.drained evts) ∧
        exec .drain s = .next { u with result := some (.drained (evt :: evts)) })

/-- 20 R46, R47, 42 R105: `DRAIN` always ends, after exactly `|inq|` successful steps, and then `inq`
is empty; it leaves the configuration alone. -/
def Obligations.DrainEmptiesInputQueue : Prop :=
  ∀ (s : State) (x : Block), s.inst = .built x →
    ∃ y evts, exec .drain s = .next { s with
        inst := .built y, result := some (.drained evts) } ∧
      evts.length = x.inq.length ∧ y.inq = [] ∧ y.cfg = x.cfg

/-- 42 R105, R104 (log 9): a `DRAIN` taken as engine turns, with nothing in between, ends like the
`DRAIN` operation: the same instance and the same list of events. -/
def Obligations.DrainTurnsComposeToDrain : Prop :=
  ∀ (s : State) (x : Block) (rest : List Input), s.inst = .built x → s.draining = none →
    s.pending = List.replicate (x.inq.length + 1) .drainTurn ++ rest →
    ∃ t u, exec .drain s = .next t ∧
      Host.Core.run core (x.inq.length + 1) s = .next u ∧
      u = { t with pending := rest }

/-- 42 R106: two chunks enqueued and drained leave the same synchronizer state, `outq` and `out_ovf`
and return the same events as one chunk that is their concatenation; the same where each chunk is
drained before the next is enqueued, with the two event lists concatenated. -/
def Obligations.ChunkBoundariesAreInvisible : Prop :=
  ∀ (s : State) (x : Block) (a c : List Byte), s.inst = .built x →
    s.params.inDepth.admits (x.inq.length + a.length + c.length) = true →
    ∃ t u e1 e2,
      runAll [.inEnq (a ++ c), .drain] s = .next (t, [.enqueued true, .drained (e1 ++ e2)]) ∧
      runAll [.inEnq a, .inEnq c, .drain] s =
        .next (t, [.enqueued true, .enqueued true, .drained (e1 ++ e2)]) ∧
      runAll [.inEnq a, .drain, .inEnq c, .drain] s =
        .next (u, [.enqueued true, .drained e1, .enqueued true, .drained e2]) ∧
      u = { t with result := some (.drained e2) }

/-- 42 R109: direct drive and queue drive give the same synchronizer state, `outq`, `out_ovf` and
events. -/
def Obligations.DirectDriveEqualsQueueDrive : Prop :=
  ∀ (s : State) (x : Block) (bytes : List Byte), s.inst = .built x → x.inq = [] →
    s.params.inDepth.admits bytes.length = true →
    ∃ t u evts rs,
      runAll [.inEnq bytes, .drain] s = .next (t, [.enqueued true, .drained evts]) ∧
      runAll (pseudoFeed bytes) s = .next (u, rs) ∧
      u.inst = t.inst ∧ rs.map Result.event = evts.map some

/-- 42 R107: a dequeue on an empty queue returns `EMPTY` and changes nothing, any number of times in a
row. -/
def Obligations.EmptyDequeueIsIdempotent : Prop :=
  ∀ (s : State) (x : Block) (n : Nat), s.inst = .built x →
    (x.inq = [] → ∃ t, runAll (List.replicate n .inDeq) s =
      .next (t, List.replicate n (.byteOut none)) ∧ t.inst = s.inst) ∧
    (x.outq = [] → ∃ t, runAll (List.replicate n .outDeq) s =
      .next (t, List.replicate n (.frameOut none)) ∧ t.inst = s.inst)

/-- 20 R41: both FIFOs are first-in first-out: bytes leave `inq`, and Frame values `outq`, in the order
in which they were appended, after those that were there before. -/
def Obligations.QueuesAreFirstInFirstOut : Prop :=
  (∀ (s : State) (x : Block) (a c : List Byte), s.inst = .built x →
    s.params.inDepth.admits (x.inq.length + a.length + c.length) = true →
    ∃ t, runAll ([.inEnq a, .inEnq c] ++
        List.replicate (x.inq.length + a.length + c.length) .inDeq) s =
      .next (t, [.enqueued true, .enqueued true] ++
        (x.inq ++ a ++ c).map (fun b => .byteOut (some b))) ∧
      t.inst = .built { x with inq := [] }) ∧
  ∀ (s : State) (x : Block) (frames : List Frame), s.inst = .built x →
    (∀ f ∈ frames, f.length = x.cfg.payloadLen) →
    s.params.outDepth.admits (x.outq.length + frames.length) = true →
    ∃ t, runAll (frames.map .outEnq ++
        List.replicate (x.outq.length + frames.length) .outDeq) s =
      .next (t, List.replicate frames.length (.enqueued true) ++
        (x.outq ++ frames).map (fun f => .frameOut (some f))) ∧
      t.inst = .built { x with outq := [] }

/-- 60 R136, 10 R24: `out_ovf` stays set until `RESET` or `CONFIG`. -/
def Obligations.OverflowBitIsSticky : Prop :=
  ∀ (i : Instr) (s t : State) (x : Block), s.inst = .built x → x.outOvf = true → i ≠ .reset →
    (∀ cfg, i ≠ .config cfg) → exec i s = .next t →
    ∃ y, t.inst = .built y ∧ y.outOvf = true

/-- 10 R24: the derived flags are functions of the queues, and `in_full` and `out_full` are never true
with an unbounded capacity. -/
def Obligations.StatusFlagsFollowQueues : Prop :=
  ∀ (p : Params) (x : Block),
    (inEmpty x = true ↔ x.inq.length = 0) ∧
    (inFull p x = true ↔ p.inDepth = .fin x.inq.length) ∧
    (outEmpty x = true ↔ x.outq.length = 0) ∧
    (outFull p x = true ↔ p.outDepth = .fin x.outq.length)

/-! ### Encodings and codes -/

/-- 30 R59: the decoder reads every operation back from its command, with every operand; and a word
that decodes to an operation is that operation's word, so that each word has one meaning. -/
def Obligations.DecodeAndEncodeAgree : Prop :=
  (∀ i : Instr, decode (encode i) = .ok i) ∧
  ∀ (c : Command) (i : Instr), decode c = .ok i → (encode i).word = c.word

/-- 30 R60, 60 R148: the decoder accepts exactly the words that are not reserved (a tag of at most
`0xA`, and `imm` zero unless the tag is `0x3`), and a reserved word returns `ERR_ILLEGAL_OP` and changes
no state of the block. That an accepted word is accepted whatever stands beside it, an operand its
format does not use included, is the model's choice (log 5). -/
def Obligations.ReservedWordsAreIllegal : Prop :=
  (∀ c : Command, (∃ i, decode c = .ok i) ↔
    c.word.toNat / 256 ≤ 0xA ∧ (c.word.toNat / 256 = 0x3 ∨ c.word.toNat % 256 = 0)) ∧
  ∀ (s : State) (c : Command) (rest : List Input), s.pending = .op c :: rest →
    (0xA < c.word.toNat / 256 ∨ (c.word.toNat / 256 ≠ 0x3 ∧ c.word.toNat % 256 ≠ 0)) →
    step s = .next { s with pending := rest, result := some .illegalOp }

/-- 95 P1, P2, P4: command words written out by the spec decode to the operations they stand for. The
last clause is the model's choice (log 5): a word stands for its operation whatever else stands beside
it, for each of the eleven words of 30 R59. -/
def Obligations.SampleWordsDecode : Prop :=
  decode ⟨0x100, [], some ⟨[0xAA, 0x55, 0xC3, 0x3C], 4⟩⟩ =
    .ok (.config (some ⟨[0xAA, 0x55, 0xC3, 0x3C], 4⟩)) ∧
  decode ⟨0x3AA, [], none⟩ = .ok (.processByte 0xAA) ∧
  decode ⟨0x400, [0x44, 0xBF], none⟩ = .ok (.inEnq [0x44, 0xBF]) ∧
  decode ⟨0x700, [], none⟩ = .ok .drain ∧ decode ⟨0x900, [], none⟩ = .ok .outDeq ∧
  decode ⟨0xA00, [], none⟩ = .ok .close ∧
  ∀ (b : Byte) (bytes : List Byte) (cfg : Option CfgRecord),
    decode ⟨0x000, bytes, cfg⟩ = .ok .reset ∧ decode ⟨0x100, bytes, cfg⟩ = .ok (.config cfg) ∧
    decode ⟨0x200, bytes, cfg⟩ = .ok (.crc16 bytes) ∧
    decode ⟨BitVec.ofNat 12 (0x300 + b.toNat), bytes, cfg⟩ = .ok (.processByte b) ∧
    decode ⟨0x400, bytes, cfg⟩ = .ok (.inEnq bytes) ∧ decode ⟨0x500, bytes, cfg⟩ = .ok .inDeq ∧
    decode ⟨0x600, bytes, cfg⟩ = .ok .step ∧ decode ⟨0x700, bytes, cfg⟩ = .ok .drain ∧
    decode ⟨0x800, bytes, cfg⟩ = .ok (.outEnq bytes) ∧ decode ⟨0x900, bytes, cfg⟩ = .ok .outDeq ∧
    decode ⟨0xA00, bytes, cfg⟩ = .ok .close

/-- 30 R56, R57, R58: the codes of the events, the queue results and the construction results. -/
def Obligations.ResultCodesAreTheTables : Prop :=
  [Event.none, .frameValid, .crcError, .frameDropped].map Event.code = [0, 1, 2, 3] ∧
  [QueueCode.ok, .empty, .errFull, .errIllegalOp].map QueueCode.code = [0, 1, 2, 3] ∧
  [none, some CfgError.errNullConfig, some .errZeroSync, some .errZeroPayload,
    some .errResource].map cfgCode = [0, 1, 2, 3, 4] ∧
  (Result.enqueued true).queueCode = some .ok ∧ (Result.enqueued false).queueCode = some .errFull ∧
  Result.illegalOp.queueCode = some .errIllegalOp ∧ (Result.byteOut none).queueCode = some .empty ∧
  (Result.frameOut none).queueCode = some .empty ∧ (Result.stepped none).queueCode = some .empty ∧
  (∀ b, (Result.byteOut (some b)).queueCode = some .ok) ∧
  (∀ f, (Result.frameOut (some f)).queueCode = some .ok) ∧
  (∀ e, (Result.stepped (some e)).queueCode = some .ok)

/-- 30 R53, 20 R35: the first checksum byte is the high byte and the second the low byte, and a sender
that writes high byte then low byte is read back. -/
def Obligations.ChecksumFieldIsBigEndian : Prop :=
  (∀ first second : Byte,
    (receivedChecksum first second).toNat = first.toNat * 256 + second.toNat) ∧
  ∀ v : Word16, ∃ first second, checksumField v = [first, second] ∧
    receivedChecksum first second = v

/-- 30 R55: on a bus, byte `i` of a Frame value occupies bits `8i+7 .. 8i`, and nothing lies above. -/
def Obligations.FrameBusLayout : Prop :=
  ∀ f : Frame, frameBus f < 2 ^ (8 * f.length) ∧
    ∀ (i : Nat) (b : Byte), f[i]? = some b → frameBus f / 2 ^ (8 * i) % 256 = b.toNat

/-! ### The machine as a whole -/

/-- A step runs the decoded operation: `step` is `exec` of it on the state whose head input has been
taken, and nothing more. -/
def Obligations.StepRunsDecodedOperation : Prop :=
  ∀ (s : State) (c : Command) (i : Instr) (rest : List Input), s.pending = .op c :: rest →
    decode c = .ok i → step s = exec i { s with pending := rest }

/-- 41 R98, 70 R161: nothing blocks and nothing halts: on an instance every operation with a legal
operand answers a next state, and `CONFIG` does in every state (43 R120; that it does where an instance
exists already is the model's reading, log 6). -/
def Obligations.EveryOperationCompletes : Prop :=
  (∀ (i : Instr) (s : State) (x : Block), s.inst = .built x →
    i.wellFormed x.cfg.payloadLen = true → ∃ t, exec i s = .next t) ∧
  ∀ (cfg : Option CfgRecord) (s : State), ∃ t, exec (.config cfg) s = .next t

/-- 10 R25 (log 4): no operation reads the result of the one before it. -/
def Obligations.ResultIsNotRead : Prop :=
  ∀ (i : Instr) (s : State) (r : Option Result), exec i { s with result := r } = exec i s

/-- The machine right after reset meets the invariants of 10 R19, with nothing in its past. -/
def Obligations.ResetMeetsInvariants : Prop :=
  State.reset.wf = true ∧ State.reset.captureAgrees History.fresh = true ∧
    State.reset.framesVerified History.fresh = true

/-- 10 R19, all six items. Every step keeps `State.wf`: counters in range, no checksum byte before the
payload is complete, a buffer of `L` bytes that is zero above `payloadFill` during a capture, queues
within their capacities, frames of `L` bytes. Beside any record of the past that agrees with the state,
every step keeps item 4: the buffer holds the bytes received since the sync pattern completed. And a
step in which no internal operation is issued from outside (30 R59, log 13) keeps item 6: every frame
of `outq` is one whose checksum was verified. -/
def Obligations.StepKeepsInvariants : Prop :=
  ∀ s t : State, s.wf = true → step s = .next t →
    t.wf = true ∧
    ∀ h : History, s.captureAgrees h = true →
      t.captureAgrees (h.after s) = true ∧
      ((∀ i rest, s.pending = i :: rest → i.external = true) → s.framesVerified h = true →
        t.framesVerified (h.after s) = true)

/-- 30 R62, R63, R64: a clock cycle with `rst` performs `RESET` and nothing else; one without is the
interleaving of its operations in the fixed order `STEP` (or `CLOSE`), `OUT_DEQ`, `IN_ENQ`, chosen from
the state at its start, and no handshake fails. Nothing but the instance, the inputs, the result and
the count of cycles changes. The place of `CLOSE` beside the handshakes is the model's (log 12). -/
def Obligations.ClockCycleIsAnInterleaving : Prop :=
  ∀ (s : State) (x : Block) (i : PortsIn) (rest : List Input), s.inst = .built x → s.wf = true →
    s.pending = .cycle i :: rest →
    ∃ t u rs, step s = .next t ∧
      runAll
        (if i.rst = true then [.reset] else
          (if i.close = true then [.close]
            else if i.run = true ∧ x.inq ≠ [] then [.step] else []) ++
          (if x.outq ≠ [] ∧ i.outReady = true then [.outDeq] else []) ++
          (if i.inValid = true ∧ inFull s.params x = false then [.inEnq [i.inData]] else []))
        { s with pending := rest } = .next (u, rs) ∧
      t = { s with
        pending := rest, inst := u.inst, result := t.result, portCycles := t.portCycles } ∧
      .stepped none ∉ rs ∧ .frameOut none ∉ rs ∧ .enqueued false ∉ rs

/-- 30 R62, R55: the output signals of a cycle: the flags at its start, the head Frame value while
there is one, and `evt_valid` with the event of its `STEP` exactly where there is a `STEP` whose event
is not `NONE`. -/
def Obligations.ClockCycleOutputs : Prop :=
  ∀ (s : State) (x : Block) (i : PortsIn) (rest : List Input), s.inst = .built x →
    s.pending = .cycle i :: rest →
    ∃ t o, step s = .next t ∧ t.result = some (.ports o) ∧
      o.cfgErr = 0 ∧ o.inReady = !inFull s.params x ∧ o.inEmpty = inEmpty x ∧
      o.outValid = !outEmpty x ∧ o.outOvf = x.outOvf ∧
      (∀ f q, x.outq = f :: q → o.outData = frameBus f) ∧
      (i.rst = true ∨ i.close = true ∨ i.run = false ∨ x.inq = [] → o.evtValid = false) ∧
      (i.rst = false → i.close = false → i.run = true → ∀ b q, x.inq = b :: q →
        ∃ y evt frame, exec (.processByte b) s = .next y ∧
          y.result = some (.processed evt frame) ∧ (o.evtValid = true ↔ evt ≠ .none) ∧
          (evt ≠ .none → o.evtCode = evt.code))

/-- 30 R62, 43 R120 (log 11): with no instance a cycle with `rst` is the `CONFIG` of the constants `N`,
`SYNC`, `L`, and one without `rst` changes nothing of the block. Beside the block only the inputs, the
result and the count of cycles change. -/
def Obligations.FirstRstConstructs : Prop :=
  ∀ (s : State) (i : PortsIn) (rest : List Input), (∀ x, s.inst ≠ .built x) →
    s.pending = .cycle i :: rest →
    ∃ t u, step s = .next t ∧ exec (.config (some s.straps)) s = .next u ∧
      t = { s with
        pending := rest, inst := if i.rst = true then u.inst else s.inst
        result := t.result, portCycles := t.portCycles }

/-- 43 R122: on the ports a failed construction shows its code, with `in_ready`, `out_valid` and
`evt_valid` 0, and no cycle without `rst` changes that, however many there are. -/
def Obligations.FailedConstructionIsDeadOnPorts : Prop :=
  ∀ (is : List PortsIn) (s : State) (e : CfgError) (rest : List Input), s.inst = .failed e →
    (∀ i ∈ is, i.rst = false) → s.pending = is.map .cycle ++ rest → is ≠ [] →
    ∃ t o, Host.Core.run core is.length s = .next t ∧ t.inst = .failed e ∧ t.pending = rest ∧
      t.result = some (.ports o) ∧ o.cfgErr = cfgCode (some e) ∧ o.inReady = false ∧
      o.outValid = false ∧ o.evtValid = false

/-- 43 R125, 10 R27: an operation names one instance and affects only that one. -/
def Obligations.InstancesAreIndependent : Prop :=
  ∀ (f : Fleet) (k : Nat) (i : Instr) (s t : State), f[k]? = some s → exec i s = .next t →
    ∃ g, execOn k i f = .next g ∧ g.length = f.length ∧ g[k]? = some t ∧
      ∀ j, j ≠ k → g[j]? = f[j]?
end

