-- ==== Sys2Proof/Laws/State.lean ====
section
/-! SUPPORT. One lemma per field for each update of State and for each way an instance is made, so
that no proof unfolds a record update. -/

namespace Sys2Proof.Machine

open Sys2Proof

@[simp] theorem answer_inst (s : State) (i : Construction) (r : Result) :
    (s.answer i r).inst = i := rfl

@[simp] theorem answer_straps (s : State) (i : Construction) (r : Result) :
    (s.answer i r).straps = s.straps := rfl

@[simp] theorem answer_params (s : State) (i : Construction) (r : Result) :
    (s.answer i r).params = s.params := rfl

@[simp] theorem answer_pending (s : State) (i : Construction) (r : Result) :
    (s.answer i r).pending = s.pending := rfl

@[simp] theorem answer_result (s : State) (i : Construction) (r : Result) :
    (s.answer i r).result = some r := rfl

@[simp] theorem answer_draining (s : State) (i : Construction) (r : Result) :
    (s.answer i r).draining = s.draining := rfl

@[simp] theorem answer_portCycles (s : State) (i : Construction) (r : Result) :
    (s.answer i r).portCycles = s.portCycles := rfl

@[simp] theorem took_inst (s : State) (rest : List Input) :
    (s.took rest).inst = s.inst := rfl

@[simp] theorem took_straps (s : State) (rest : List Input) :
    (s.took rest).straps = s.straps := rfl

@[simp] theorem took_params (s : State) (rest : List Input) :
    (s.took rest).params = s.params := rfl

@[simp] theorem took_pending (s : State) (rest : List Input) :
    (s.took rest).pending = rest := rfl

@[simp] theorem took_result (s : State) (rest : List Input) :
    (s.took rest).result = s.result := rfl

@[simp] theorem took_draining (s : State) (rest : List Input) :
    (s.took rest).draining = s.draining := rfl

@[simp] theorem took_portCycles (s : State) (rest : List Input) :
    (s.took rest).portCycles = s.portCycles := rfl

@[simp] theorem illegalCommand_inst (s : State) :
    (illegalCommand s).inst = s.inst := rfl

@[simp] theorem illegalCommand_straps (s : State) :
    (illegalCommand s).straps = s.straps := rfl

@[simp] theorem illegalCommand_params (s : State) :
    (illegalCommand s).params = s.params := rfl

@[simp] theorem illegalCommand_pending (s : State) :
    (illegalCommand s).pending = s.pending := rfl

@[simp] theorem illegalCommand_result (s : State) :
    (illegalCommand s).result = some .illegalOp := rfl

@[simp] theorem illegalCommand_draining (s : State) :
    (illegalCommand s).draining = s.draining := rfl

@[simp] theorem illegalCommand_portCycles (s : State) :
    (illegalCommand s).portCycles = s.portCycles := rfl

@[simp] theorem withFetchWord_inst (s : State) (nbits w : Nat) :
    (s.withFetchWord nbits w).inst = s.inst := rfl

@[simp] theorem withFetchWord_straps (s : State) (nbits w : Nat) :
    (s.withFetchWord nbits w).straps = s.straps := rfl

@[simp] theorem withFetchWord_params (s : State) (nbits w : Nat) :
    (s.withFetchWord nbits w).params = s.params := rfl

@[simp] theorem withFetchWord_pending (s : State) (nbits w : Nat) :
    (s.withFetchWord nbits w).pending = .op (tableCommand nbits w) :: s.pending := rfl

@[simp] theorem withFetchWord_result (s : State) (nbits w : Nat) :
    (s.withFetchWord nbits w).result = s.result := rfl

@[simp] theorem withFetchWord_draining (s : State) (nbits w : Nat) :
    (s.withFetchWord nbits w).draining = s.draining := rfl

@[simp] theorem withFetchWord_portCycles (s : State) (nbits w : Nat) :
    (s.withFetchWord nbits w).portCycles = s.portCycles := rfl

@[simp] theorem fresh_cfg (c : CfgRecord) :
    (Block.fresh c).cfg = c := rfl

@[simp] theorem fresh_sync (c : CfgRecord) :
    (Block.fresh c).sync = ⟨.seeking 0, List.replicate c.payloadLen 0⟩ := rfl

@[simp] theorem fresh_inq (c : CfgRecord) :
    (Block.fresh c).inq = [] := rfl

@[simp] theorem fresh_outq (c : CfgRecord) :
    (Block.fresh c).outq = [] := rfl

@[simp] theorem fresh_outOvf (c : CfgRecord) :
    (Block.fresh c).outOvf = false := rfl

@[simp] theorem constructBlock_cfg (c : CfgRecord) :
    (constructBlock c).cfg = c := rfl

@[simp] theorem constructBlock_sync (c : CfgRecord) :
    (constructBlock c).sync = ⟨.seeking 0, List.replicate c.payloadLen 0⟩ := rfl

@[simp] theorem constructBlock_inq (c : CfgRecord) :
    (constructBlock c).inq = [] := rfl

@[simp] theorem constructBlock_outq (c : CfgRecord) :
    (constructBlock c).outq = [] := rfl

@[simp] theorem constructBlock_outOvf (c : CfgRecord) :
    (constructBlock c).outOvf = false := rfl

@[simp] theorem resetBlock_cfg (x : Block) :
    (resetBlock x).cfg = x.cfg := rfl

@[simp] theorem resetBlock_sync (x : Block) :
    (resetBlock x).sync = ⟨.seeking 0, List.replicate x.cfg.payloadLen 0⟩ := rfl

@[simp] theorem resetBlock_inq (x : Block) :
    (resetBlock x).inq = [] := rfl

@[simp] theorem resetBlock_outq (x : Block) :
    (resetBlock x).outq = [] := rfl

@[simp] theorem resetBlock_outOvf (x : Block) :
    (resetBlock x).outOvf = false := rfl

@[simp] theorem closeBlock_cfg (x : Block) :
    (closeBlock x).1.cfg = x.cfg := rfl

@[simp] theorem closeBlock_sync (x : Block) :
    (closeBlock x).1.sync = { x.sync with state := .seeking 0 } := rfl

@[simp] theorem closeBlock_inq (x : Block) :
    (closeBlock x).1.inq = x.inq := rfl

@[simp] theorem closeBlock_outq (x : Block) :
    (closeBlock x).1.outq = x.outq := rfl

@[simp] theorem closeBlock_outOvf (x : Block) :
    (closeBlock x).1.outOvf = x.outOvf := rfl

end Sys2Proof.Machine
end

