-- ==== Sys2Proof/Laws/Ops.lean ====
section
/-! SUPPORT. For each shared operation one lemma that says everything it can do, for proofs to cite
instead of unfolding the operation. -/

namespace Sys2Proof.Machine

open Sys2Proof

@[simp] theorem admits_inf (n : Nat) : Capacity.inf.admits n = true := rfl

@[simp] theorem admits_fin (c n : Nat) : (Capacity.fin c).admits n = decide (n ≤ c) := rfl

theorem admits_mono {c : Capacity} {m n : Nat} (h : c.admits n = true) (hm : m ≤ n) :
    c.admits m = true := by
  cases c with
  | fin k => simp only [admits_fin, decide_eq_true_eq] at h ⊢; omega
  | inf => rfl

@[simp] theorem admits_zero (c : Capacity) : c.admits 0 = true := by
  cases c <;> simp

/-- Within its capacity, a queue is not full exactly when it has room for one more entry. -/
theorem not_reached_iff_room {c : Capacity} {n : Nat} (h : c.admits n = true) :
    Capacity.reached c n = false ↔ c.admits (n + 1) = true := by
  cases c with
  | fin k =>
    simp only [admits_fin, decide_eq_true_eq] at h
    simp only [Capacity.reached, admits_fin, decide_eq_false_iff_not, decide_eq_true_eq]; omega
  | inf => simp [Capacity.reached]

/-! ### Operations on the instance -/

theorem onBlock_built {s : State} {x : Block} (h : s.inst = .built x) (f : Block → Block × Result) :
    onBlock s f = .next (s.answer (.built (f x).1) (f x).2) := by
  simp [onBlock, h]

theorem onBlock_noInstance {s : State} (h : ∀ x, s.inst ≠ .built x) (f : Block → Block × Result) :
    onBlock s f = .refused .noInstance := by
  unfold onBlock; split
  · rename_i x hx; exact absurd hx (h x)
  · rfl
  · rfl

theorem onBlock_next {s t : State} {f : Block → Block × Result} (h : onBlock s f = .next t) :
    ∃ x, s.inst = .built x ∧ t = s.answer (.built (f x).1) (f x).2 := by
  unfold onBlock at h; split at h
  · rename_i x hx; exact ⟨x, hx, (Host.Outcome.next.inj h).symm⟩
  · cases h
  · cases h

/-! ### The queues -/

theorem enqueueChunk_room {p : Params} {x : Block} {chunk : List Byte}
    (h : p.inDepth.admits (x.inq.length + chunk.length) = true) :
    enqueueChunk p x chunk = ({ x with inq := x.inq ++ chunk }, true) := by
  simp [enqueueChunk, h]

theorem enqueueChunk_full {p : Params} {x : Block} {chunk : List Byte}
    (h : p.inDepth.admits (x.inq.length + chunk.length) = false) :
    enqueueChunk p x chunk = (x, false) := by
  simp [enqueueChunk, h]

theorem enqueueChunk_cases (p : Params) (x : Block) (chunk : List Byte) :
    (p.inDepth.admits (x.inq.length + chunk.length) = true ∧
      enqueueChunk p x chunk = ({ x with inq := x.inq ++ chunk }, true)) ∨
    (p.inDepth.admits (x.inq.length + chunk.length) = false ∧
      enqueueChunk p x chunk = (x, false)) := by
  cases h : p.inDepth.admits (x.inq.length + chunk.length)
  · exact .inr ⟨rfl, enqueueChunk_full h⟩
  · exact .inl ⟨rfl, enqueueChunk_room h⟩

theorem enqueueFrame_room {p : Params} {x : Block} (f : Frame)
    (h : p.outDepth.admits (x.outq.length + 1) = true) :
    enqueueFrame p x f = ({ x with outq := x.outq ++ [f] }, true) := by
  simp [enqueueFrame, h]

theorem enqueueFrame_full {p : Params} {x : Block} (f : Frame)
    (h : p.outDepth.admits (x.outq.length + 1) = false) : enqueueFrame p x f = (x, false) := by
  simp [enqueueFrame, h]

theorem enqueueFrame_cases (p : Params) (x : Block) (f : Frame) :
    (p.outDepth.admits (x.outq.length + 1) = true ∧
      enqueueFrame p x f = ({ x with outq := x.outq ++ [f] }, true)) ∨
    (p.outDepth.admits (x.outq.length + 1) = false ∧ enqueueFrame p x f = (x, false)) := by
  cases h : p.outDepth.admits (x.outq.length + 1)
  · exact .inr ⟨rfl, enqueueFrame_full f h⟩
  · exact .inl ⟨rfl, enqueueFrame_room f h⟩

theorem dequeueByte_nil {x : Block} (h : x.inq = []) : dequeueByte x = (x, none) := by
  simp [dequeueByte, h]

theorem dequeueByte_cons {x : Block} {b : Byte} {rest : List Byte} (h : x.inq = b :: rest) :
    dequeueByte x = ({ x with inq := rest }, some b) := by
  simp [dequeueByte, h]

theorem dequeueFrame_nil {x : Block} (h : x.outq = []) : dequeueFrame x = (x, none) := by
  simp [dequeueFrame, h]

theorem dequeueFrame_cons {x : Block} {f : Frame} {rest : List Frame} (h : x.outq = f :: rest) :
    dequeueFrame x = ({ x with outq := rest }, some f) := by
  simp [dequeueFrame, h]

end Sys2Proof.Machine
end

