-- ==== Sys2Proof/Laws/Synchronizer.lean ====
section
/-! SUPPORT. The synchronizer: what each arm answers, and everything `processByte` and `engineStep`
can do. -/

namespace Sys2Proof.Machine

open Sys2Proof

/-! ### The core, arm by arm (41 R80) -/

theorem syncStep_sMatch {c : CfgRecord} {y : Synchronizer} {b : Byte} {k : Nat}
    (hs : y.state = .seeking k) (hb : c.syncPattern[k]? = some b) (hk : k + 1 < c.n) :
    syncStep c y b = ({ y with state := .seeking (k + 1) }, .undecided) := by
  simp [syncStep, hs, hb, hk, armSMatch]

theorem syncStep_sComplete {c : CfgRecord} {y : Synchronizer} {b : Byte} {k : Nat}
    (hs : y.state = .seeking k) (hb : c.syncPattern[k]? = some b) (hk : k + 1 = c.n) :
    syncStep c y b = (⟨.capturing 0 0 0, List.replicate c.payloadLen 0⟩, .undecided) := by
  simp [syncStep, hs, hb, hk, armSComplete, zeroBuffer]

theorem syncStep_sMismatch {c : CfgRecord} {y : Synchronizer} {b : Byte} {k : Nat}
    (hs : y.state = .seeking k) (hb : c.syncPattern[k]? ≠ some b) :
    syncStep c y b = ({ y with state := .seeking 0 }, .undecided) := by
  simp [syncStep, hs, hb, armSMismatch]

theorem syncStep_cPayload {c : CfgRecord} {y : Synchronizer} {b hi : Byte} {fill : Nat} {cf : Fin 2}
    (hs : y.state = .capturing fill cf hi) (hf : fill < c.payloadLen) :
    syncStep c y b = (⟨.capturing (fill + 1) cf hi, y.payloadBuffer.set fill b⟩, .undecided) := by
  simp [syncStep, hs, hf, armCPayload, writeBuffer]

theorem syncStep_cCheck1 {c : CfgRecord} {y : Synchronizer} {b hi : Byte}
    (hs : y.state = .capturing c.payloadLen 0 hi) :
    syncStep c y b = ({ y with state := .capturing c.payloadLen 1 b }, .undecided) := by
  simp [syncStep, hs, armCCheck1]

theorem syncStep_cCheck2 {c : CfgRecord} {y : Synchronizer} {b hi : Byte}
    (hs : y.state = .capturing c.payloadLen 1 hi) :
    syncStep c y b = ({ y with state := .seeking 0 },
      if receivedChecksum hi b = crc16 (y.payloadBuffer.take c.payloadLen)
      then .matched (y.payloadBuffer.take c.payloadLen) else .mismatched) := by
  simp only [syncStep, hs, armCCheck2, copyPayload, Nat.lt_irrefl, if_false]
  rfl

/-- A payload is decided on only from the checksum stage, and the search then starts afresh. -/
theorem syncStep_decided {c : CfgRecord} {y z : Synchronizer} {b : Byte} {o : CoreOutcome}
    (h : syncStep c y b = (z, o)) (ho : o ≠ .undecided) :
    ∃ fill hi, y.state = .capturing fill 1 hi ∧ ¬ fill < c.payloadLen ∧
      z = { y with state := .seeking 0 } ∧
      o = if receivedChecksum hi b = crc16 (y.payloadBuffer.take c.payloadLen)
        then .matched (y.payloadBuffer.take c.payloadLen) else .mismatched := by
  unfold syncStep at h
  split at h
  · split at h
    · split at h
      · cases h; exact absurd rfl ho
      · cases h; exact absurd rfl ho
    · cases h; exact absurd rfl ho
  · rename_i fill cf hi hst
    split at h
    · cases h; exact absurd rfl ho
    · rename_i hlt
      split at h
      · cases h; exact absurd rfl ho
      · rename_i hcf
        have : cf = 1 := by omega
        subst this
        cases h
        exact ⟨fill, hi, hst, hlt, rfl, rfl⟩

/-! ### PROCESS_BYTE on an instance -/

theorem processByte_undecided {p : Params} {x : Block} {b : Byte} {y : Synchronizer}
    (h : syncStep x.cfg x.sync b = (y, .undecided)) :
    processByte p x b = ({ x with sync := y }, .none, none) := by
  simp [processByte, h]

theorem processByte_mismatched {p : Params} {x : Block} {b : Byte} {y : Synchronizer}
    (h : syncStep x.cfg x.sync b = (y, .mismatched)) :
    processByte p x b = ({ x with sync := y }, .crcError, none) := by
  simp [processByte, h, rejectFrame]

theorem processByte_matched_room {p : Params} {x : Block} {b : Byte} {y : Synchronizer} {f : Frame}
    (h : syncStep x.cfg x.sync b = (y, .matched f))
    (hr : p.outDepth.admits (x.outq.length + 1) = true) :
    processByte p x b = ({ x with sync := y, outq := x.outq ++ [f] }, .frameValid, some f) := by
  simp [processByte, h, acceptFrame, enqueueFrame, hr]

theorem processByte_matched_full {p : Params} {x : Block} {b : Byte} {y : Synchronizer} {f : Frame}
    (h : syncStep x.cfg x.sync b = (y, .matched f))
    (hr : p.outDepth.admits (x.outq.length + 1) = false) :
    processByte p x b = ({ x with sync := y, outOvf := true }, .frameDropped, some f) := by
  simp [processByte, h, acceptFrame, enqueueFrame, hr]

/-- Everything `PROCESS_BYTE` can do to an instance (41 R87, R88, R92): the core's next
synchronizer, and on the output side nothing, one frame more, or the sticky bit. -/
theorem processByte_cases (p : Params) (x : Block) (b : Byte) :
    ∃ y o, syncStep x.cfg x.sync b = (y, o) ∧
      ((o = .undecided ∧ processByte p x b = ({ x with sync := y }, .none, none)) ∨
       (o = .mismatched ∧ processByte p x b = ({ x with sync := y }, .crcError, none)) ∨
       (∃ f, o = .matched f ∧ p.outDepth.admits (x.outq.length + 1) = true ∧
          processByte p x b =
            ({ x with sync := y, outq := x.outq ++ [f] }, .frameValid, some f)) ∨
       (∃ f, o = .matched f ∧ p.outDepth.admits (x.outq.length + 1) = false ∧
          processByte p x b = ({ x with sync := y, outOvf := true }, .frameDropped, some f))) := by
  rcases hyo : syncStep x.cfg x.sync b with ⟨y, o⟩
  refine ⟨y, o, rfl, ?_⟩
  cases o with
  | undecided => exact .inl ⟨rfl, processByte_undecided hyo⟩
  | mismatched => exact .inr (.inl ⟨rfl, processByte_mismatched hyo⟩)
  | matched f =>
    cases hr : p.outDepth.admits (x.outq.length + 1)
    · exact .inr (.inr (.inr ⟨f, rfl, rfl, processByte_matched_full hyo hr⟩))
    · exact .inr (.inr (.inl ⟨f, rfl, rfl, processByte_matched_room hyo hr⟩))

@[simp] theorem processByte_cfg (p : Params) (x : Block) (b : Byte) :
    (processByte p x b).1.cfg = x.cfg := by
  obtain ⟨y, o, -, ⟨-, h⟩ | ⟨-, h⟩ | ⟨f, -, -, h⟩ | ⟨f, -, -, h⟩⟩ := processByte_cases p x b <;>
    rw [h]

@[simp] theorem processByte_inq (p : Params) (x : Block) (b : Byte) :
    (processByte p x b).1.inq = x.inq := by
  obtain ⟨y, o, -, ⟨-, h⟩ | ⟨-, h⟩ | ⟨f, -, -, h⟩ | ⟨f, -, -, h⟩⟩ := processByte_cases p x b <;>
    rw [h]

/-- The synchronizer's next state is the core's, whatever the output side does (41 R80). -/
@[simp] theorem processByte_sync (p : Params) (x : Block) (b : Byte) :
    (processByte p x b).1.sync = (syncStep x.cfg x.sync b).1 := by
  obtain ⟨y, o, hs, ⟨-, h⟩ | ⟨-, h⟩ | ⟨f, -, -, h⟩ | ⟨f, -, -, h⟩⟩ := processByte_cases p x b <;>
    rw [h, hs]

/-- `PROCESS_BYTE` neither reads nor writes the input FIFO (41 R80). -/
theorem processByte_withInq (p : Params) (x : Block) (b : Byte) (q : List Byte) :
    processByte p { x with inq := q } b =
      ({ (processByte p x b).1 with inq := q }, (processByte p x b).2) := by
  obtain ⟨y, o, hs, ⟨rfl, h⟩ | ⟨rfl, h⟩ | ⟨f, rfl, hr, h⟩ | ⟨f, rfl, hr, h⟩⟩ :=
    processByte_cases p x b <;> rw [h]
  · exact processByte_undecided (x := { x with inq := q }) hs
  · exact processByte_mismatched (x := { x with inq := q }) hs
  · exact processByte_matched_room (x := { x with inq := q }) hs hr
  · exact processByte_matched_full (x := { x with inq := q }) hs hr

/-! ### STEP on an instance -/

theorem engineStep_nil {p : Params} {x : Block} (h : x.inq = []) : engineStep p x = (x, none) := by
  simp [engineStep, dequeueByte_nil h]

theorem engineStep_cons {p : Params} {x : Block} {b : Byte} {rest : List Byte}
    (h : x.inq = b :: rest) :
    engineStep p x = ({ (processByte p x b).1 with inq := rest }, some (processByte p x b).2.1) := by
  simp only [engineStep, dequeueByte_cons h, processByte_withInq]

end Sys2Proof.Machine
end

