-- ==== Sys2Proof/Laws/WellFormed.lean ====
section
/-! SUPPORT. Every operation on an instance keeps the invariants of 10 R19. -/

namespace Sys2Proof.Machine

open Sys2Proof

/-- The invariants of 10 R19 as propositions. -/
theorem blockWf_iff (p : Params) (x : Block) :
    x.wf p = true ↔ x.cfg.wellFormed p = true ∧ x.sync.wf x.cfg = true ∧
      p.inDepth.admits x.inq.length = true ∧ p.outDepth.admits x.outq.length = true ∧
      ∀ f ∈ x.outq, f.length = x.cfg.payloadLen := by
  simp [Block.wf, and_assoc]

theorem cfgWf_iff (p : Params) (c : CfgRecord) :
    c.wellFormed p = true ↔ 1 ≤ c.n ∧ p.nMax.admits c.n = true ∧ 1 ≤ c.payloadLen ∧
      p.lMax.admits c.payloadLen = true := by
  simp [CfgRecord.wellFormed, and_assoc]

theorem syncWf_seeking {c : CfgRecord} {y : Synchronizer} {k : Nat} (h : y.state = .seeking k) :
    y.wf c = true ↔ y.payloadBuffer.length = c.payloadLen ∧ k < c.n := by
  simp [Synchronizer.wf, h]

theorem syncWf_capturing {c : CfgRecord} {y : Synchronizer} {fill : Nat} {cf : Fin 2} {hi : Byte}
    (h : y.state = .capturing fill cf hi) :
    y.wf c = true ↔ y.payloadBuffer.length = c.payloadLen ∧ fill ≤ c.payloadLen ∧
      (fill = c.payloadLen ∨ cf = 0) ∧
      y.payloadBuffer.drop fill = List.replicate (c.payloadLen - fill) 0 := by
  simp [Synchronizer.wf, h, and_assoc]

theorem syncWf_length {c : CfgRecord} {y : Synchronizer} (h : y.wf c = true) :
    y.payloadBuffer.length = c.payloadLen := by
  simp only [Synchronizer.wf, Bool.and_eq_true, decide_eq_true_eq] at h
  exact h.1

/-- Back in `Seeking(0)`, a good synchronizer is good. -/
theorem syncWf_restart {c : CfgRecord} {y : Synchronizer} (h : y.wf c = true) (hn : 1 ≤ c.n) :
    ({ y with state := .seeking 0 } : Synchronizer).wf c = true :=
  (syncWf_seeking rfl).mpr ⟨syncWf_length (y := y) h, hn⟩

/-- The core keeps the synchronizer's invariants, and a payload it accepts has `L` bytes. -/
theorem syncStep_wf {c : CfgRecord} {y z : Synchronizer} {b : Byte} {o : CoreOutcome}
    (hn : 1 ≤ c.n) (hw : y.wf c = true) (h : syncStep c y b = (z, o)) :
    z.wf c = true ∧ ∀ f, o = .matched f → f.length = c.payloadLen := by
  have hlen := syncWf_length hw
  unfold syncStep at h
  split at h
  · rename_i k hst
    split at h
    · split at h
      · rename_i hk
        cases h
        exact ⟨(syncWf_seeking rfl).mpr ⟨hlen, hk⟩, by simp⟩
      · cases h
        exact ⟨(syncWf_capturing rfl).mpr (by simp [zeroBuffer]), by simp⟩
    · cases h
      exact ⟨syncWf_restart hw hn, by simp⟩
  · rename_i fill cf hi hst
    obtain ⟨-, hle, hcf, hz⟩ := (syncWf_capturing hst).mp hw
    split at h
    · rename_i hlt
      cases h
      have hcf0 : cf = 0 := hcf.resolve_left (by omega)
      refine ⟨(syncWf_capturing rfl).mpr ⟨by simp [writeBuffer, hlen], hlt, .inr hcf0, ?_⟩, by simp⟩
      have hz' : (y.payloadBuffer.drop fill).drop 1 = List.replicate (c.payloadLen - (fill + 1)) 0 := by
        rw [hz, List.drop_replicate]; congr 1
      rw [List.drop_drop] at hz'
      simpa [writeBuffer, List.drop_set] using hz'
    · rename_i hge
      split at h
      · cases h
        exact ⟨(syncWf_capturing rfl).mpr ⟨hlen, hle, .inl (by omega), hz⟩, by simp⟩
      · cases h
        refine ⟨syncWf_restart hw hn, fun f hf => ?_⟩
        split at hf
        · cases hf; simp [copyPayload, hlen]
        · cases hf

theorem processByte_wf {p : Params} {x : Block} (b : Byte) (h : x.wf p = true) :
    (processByte p x b).1.wf p = true := by
  obtain ⟨hc, hs, hi, ho, hf⟩ := (blockWf_iff p x).mp h
  have hn := ((cfgWf_iff p x.cfg).mp hc).1
  obtain ⟨y, o, hst, ⟨-, e⟩ | ⟨-, e⟩ | ⟨f, rfl, hr, e⟩ | ⟨f, -, -, e⟩⟩ := processByte_cases p x b
  all_goals
    obtain ⟨hy, hm⟩ := syncStep_wf hn hs hst
    rw [e, blockWf_iff]
  · exact ⟨hc, hy, hi, ho, hf⟩
  · exact ⟨hc, hy, hi, ho, hf⟩
  · refine ⟨hc, hy, hi, by simpa using hr, fun g hg => ?_⟩
    rcases List.mem_append.mp hg with hg | hg
    · exact hf g hg
    · rw [List.mem_singleton.mp hg]; exact hm f rfl
  · exact ⟨hc, hy, hi, ho, hf⟩

theorem withInq_wf {p : Params} {x : Block} {q : List Byte} (h : x.wf p = true)
    (hq : p.inDepth.admits q.length = true) : ({ x with inq := q } : Block).wf p = true := by
  obtain ⟨hc, hs, -, ho, hf⟩ := (blockWf_iff p x).mp h
  exact (blockWf_iff p _).mpr ⟨hc, hs, hq, ho, hf⟩

theorem enqueueChunk_wf {p : Params} {x : Block} (chunk : List Byte) (h : x.wf p = true) :
    (enqueueChunk p x chunk).1.wf p = true := by
  obtain ⟨hr, e⟩ | ⟨-, e⟩ := enqueueChunk_cases p x chunk <;> rw [e]
  · exact withInq_wf h (by simpa using hr)
  · exact h

theorem dequeueByte_wf {p : Params} {x : Block} (h : x.wf p = true) :
    (dequeueByte x).1.wf p = true := by
  cases hq : x.inq with
  | nil => rw [dequeueByte_nil hq]; exact h
  | cons b rest =>
    rw [dequeueByte_cons hq]
    refine withInq_wf h (admits_mono ((blockWf_iff p x).mp h).2.2.1 ?_)
    simp [hq]

theorem enqueueFrame_wf {p : Params} {x : Block} {f : Frame} (h : x.wf p = true)
    (hl : f.length = x.cfg.payloadLen) : (enqueueFrame p x f).1.wf p = true := by
  obtain ⟨hc, hs, hi, -, hf⟩ := (blockWf_iff p x).mp h
  obtain ⟨hr, e⟩ | ⟨-, e⟩ := enqueueFrame_cases p x f <;> rw [e]
  · refine (blockWf_iff p _).mpr ⟨hc, hs, hi, by simpa using hr, fun g hg => ?_⟩
    rcases List.mem_append.mp hg with hg | hg
    · exact hf g hg
    · rw [List.mem_singleton.mp hg]; exact hl
  · exact h

theorem dequeueFrame_wf {p : Params} {x : Block} (h : x.wf p = true) :
    (dequeueFrame x).1.wf p = true := by
  cases hq : x.outq with
  | nil => rw [dequeueFrame_nil hq]; exact h
  | cons f rest =>
    obtain ⟨hc, hs, hi, ho, hf⟩ := (blockWf_iff p x).mp h
    rw [dequeueFrame_cons hq]
    refine (blockWf_iff p _).mpr ⟨hc, hs, hi, admits_mono ho (by simp [hq]), fun g hg => ?_⟩
    exact hf g (by rw [hq]; exact List.mem_cons_of_mem _ hg)

theorem engineStep_wf {p : Params} {x : Block} (h : x.wf p = true) :
    (engineStep p x).1.wf p = true := by
  cases hq : x.inq with
  | nil => rw [engineStep_nil hq]; exact h
  | cons b rest =>
    rw [engineStep_cons hq]
    refine withInq_wf (processByte_wf b h) (admits_mono ((blockWf_iff p x).mp h).2.2.1 ?_)
    simp [hq]

theorem drainLoop_wf {p : Params} (n : Nat) {x : Block} (h : x.wf p = true) :
    (drainLoop p n x).1.wf p = true := by
  induction n generalizing x with
  | zero => exact h
  | succ n ih =>
    have hs := engineStep_wf h
    rcases e : engineStep p x with ⟨x', o⟩
    rw [e] at hs
    cases o with
    | none => simpa [drainLoop, e] using hs
    | some evt => simpa [drainLoop, e] using ih hs

theorem resetBlock_wf {p : Params} {x : Block} (h : x.wf p = true) : (resetBlock x).wf p = true := by
  obtain ⟨hc, -, hi, ho, -⟩ := (blockWf_iff p x).mp h
  refine (blockWf_iff p _).mpr ⟨hc, ?_, admits_mono hi (Nat.zero_le _), admits_mono ho (Nat.zero_le _),
    by simp⟩
  exact (syncWf_seeking rfl).mpr ⟨by simp, ((cfgWf_iff p _).mp hc).1⟩

theorem closeBlock_wf {p : Params} {x : Block} (h : x.wf p = true) : (closeBlock x).1.wf p = true := by
  obtain ⟨hc, hs, hi, ho, hf⟩ := (blockWf_iff p x).mp h
  exact (blockWf_iff p _).mpr ⟨hc, syncWf_restart hs ((cfgWf_iff p _).mp hc).1, hi, ho, hf⟩

/-- A configuration that passes the checks of 43 R121 is the one offered, and it is legal. -/
theorem checkConfig_ok {p : Params} {cfg : Option CfgRecord} {c : CfgRecord}
    (h : checkConfig p cfg = .ok c) : cfg = some c ∧ c.wellFormed p = true := by
  unfold checkConfig at h
  split at h
  · cases h
  · split at h
    · cases h
    · split at h
      · cases h
      · split at h
        · rename_i hn hl ha
          cases h
          simp only [Bool.and_eq_true] at ha
          exact ⟨rfl, (cfgWf_iff p _).mpr ⟨by omega, ha.1, by omega, ha.2⟩⟩
        · cases h

/-- An instance made with a legal configuration meets the invariants. -/
theorem constructBlock_wf {p : Params} {c : CfgRecord} (h : c.wellFormed p = true) :
    (constructBlock c).wf p = true := by
  refine (blockWf_iff p _).mpr ⟨h, (syncWf_seeking rfl).mpr ⟨by simp, ((cfgWf_iff p _).mp h).1⟩,
    ?_, ?_, by simp⟩ <;>
  · simp only [constructBlock_inq, constructBlock_outq, List.length_nil]
    exact admits_zero _

end Sys2Proof.Machine
end

