-- ==== Sys2Proof/Laws/History.lean ====
section
/-! SUPPORT. What bytes do to the record of the past: `PROCESS_BYTE` keeps the parts of 10 R19 that speak
of it. -/

namespace Sys2Proof.Machine

open Sys2Proof

@[simp] theorem history_bytes_nil (p : Params) (x : Block) (h : History) :
    History.bytes p [] x h = h := rfl

@[simp] theorem history_bytes_cons (p : Params) (x : Block) (b : Byte) (rest : List Byte)
    (h : History) : History.bytes p (b :: rest) x h =
      History.bytes p rest (processByte p x b).1 (h.byte x.cfg x.sync.state b) := rfl

/-- Item 4 of 10 R19 in `Seeking` asks nothing. -/
theorem captureAgrees_seeking {x : Block} {k : Nat} (hs : x.sync.state = .seeking k) (h : History) :
    x.captureAgrees h = true := by
  simp [Block.captureAgrees, hs]

/-- Item 4 of 10 R19 in `Capturing`, as a proposition. -/
theorem captureAgrees_capturing {x : Block} {fill : Nat} {cf : Fin 2} {hi : Byte}
    (hs : x.sync.state = .capturing fill cf hi) (h : History) :
    x.captureAgrees h = true ↔ h.captured.length = fill ∧
      x.sync.payloadBuffer = h.captured ++ List.replicate (x.cfg.payloadLen - fill) 0 := by
  simp [Block.captureAgrees, hs]

/-- Item 6 of 10 R19 as a proposition. -/
theorem framesVerified_iff (x : Block) (h : History) :
    x.framesVerified h = true ↔ ∀ f ∈ x.outq, f.length = x.cfg.payloadLen ∧ f ∈ h.verified := by
  simp [Block.framesVerified]

/-- What was verified stays verified. -/
theorem history_byte_verified {c : CfgRecord} {y : SyncState} {b : Byte} {h : History} {f : Frame}
    (hf : f ∈ h.verified) : f ∈ (h.byte c y b).verified := by
  unfold History.byte
  repeat' split
  all_goals simp [hf]

/-- `PROCESS_BYTE` keeps item 4: the buffer holds the bytes received (41 R82, R84, R85). -/
theorem processByte_captureAgrees {p : Params} {x : Block} {h : History} (b : Byte)
    (hw : x.wf p = true) (ha : x.captureAgrees h = true) :
    (processByte p x b).1.captureAgrees (h.byte x.cfg x.sync.state b) = true := by
  have hsync := ((blockWf_iff p x).mp hw).2.1
  have hy := processByte_sync p x b
  rcases hs : x.sync.state with k | ⟨fill, cf, hi⟩
  · have hk := ((syncWf_seeking hs).mp hsync).2
    by_cases hb : x.cfg.syncPattern[k]? = some b
    · by_cases hk1 : k + 1 < x.cfg.n
      · rw [syncStep_sMatch hs hb hk1] at hy
        exact captureAgrees_seeking (by rw [hy]) _
      · have hk2 : k + 1 = x.cfg.n := by omega
        rw [syncStep_sComplete hs hb hk2] at hy
        rw [captureAgrees_capturing (by rw [hy])]
        simp [-processByte_sync, History.byte, hb, hk2, hy]
    · rw [syncStep_sMismatch hs hb] at hy
      exact captureAgrees_seeking (by rw [hy]) _
  · obtain ⟨hl, hbuf⟩ := (captureAgrees_capturing hs h).mp ha
    obtain ⟨-, hle, hfull, -⟩ := (syncWf_capturing hs).mp hsync
    by_cases hf : fill < x.cfg.payloadLen
    · rw [syncStep_cPayload hs hf] at hy
      rw [captureAgrees_capturing (by rw [hy])]
      obtain ⟨m, hm⟩ : ∃ m, x.cfg.payloadLen - fill = m + 1 :=
        ⟨x.cfg.payloadLen - fill - 1, by omega⟩
      have hm' : x.cfg.payloadLen - (fill + 1) = m := by omega
      simp [-processByte_sync, History.byte, hf, hl, hy, hbuf, hm, hm', List.replicate_succ]
    · have hL : fill = x.cfg.payloadLen := by omega
      subst hL
      by_cases hc : cf = 0
      · subst hc
        rw [syncStep_cCheck1 hs] at hy
        rw [captureAgrees_capturing (by rw [hy])]
        simp [-processByte_sync, History.byte, hl, hy, hbuf]
      · have h1 : cf = 1 := by omega
        subst h1
        rw [syncStep_cCheck2 hs] at hy
        exact captureAgrees_seeking (by rw [hy]) _

/-- `PROCESS_BYTE` keeps item 6: a frame it appends is what was received, verified (41 R86, R87). -/
theorem processByte_framesVerified {p : Params} {x : Block} {h : History} (b : Byte)
    (hw : x.wf p = true) (ha : x.captureAgrees h = true) (hv : x.framesVerified h = true) :
    (processByte p x b).1.framesVerified (h.byte x.cfg x.sync.state b) = true := by
  have hsync := ((blockWf_iff p x).mp hw).2.1
  rw [framesVerified_iff] at hv ⊢
  have hold : ∀ f ∈ x.outq, f.length = x.cfg.payloadLen ∧
      f ∈ (h.byte x.cfg x.sync.state b).verified :=
    fun f hf => ⟨(hv f hf).1, history_byte_verified (hv f hf).2⟩
  obtain ⟨y, o, hs, ⟨-, e⟩ | ⟨-, e⟩ | ⟨f, rfl, -, e⟩ | ⟨f, -, -, e⟩⟩ := processByte_cases p x b <;>
    rw [e]
  · exact hold
  · exact hold
  · obtain ⟨fill, hi, hst, hlt, -, ho⟩ := syncStep_decided hs (by simp)
    obtain ⟨hl, hbuf⟩ := (captureAgrees_capturing hst h).mp ha
    obtain ⟨-, hle, -, -⟩ := (syncWf_capturing hst).mp hsync
    have hL : fill = x.cfg.payloadLen := by omega
    have htake : x.sync.payloadBuffer.take x.cfg.payloadLen = h.captured := by
      rw [hbuf, ← hL]; simp [hl]
    rw [htake] at ho
    split at ho
    · rename_i hcrc
      cases ho
      intro g hg
      rcases List.mem_append.mp hg with hg | hg
      · exact hold g hg
      · rw [List.mem_singleton.mp hg]
        refine ⟨by rw [hl, hL], ?_⟩
        simp [History.byte, hst, hL, hcrc]
    · cases ho
  · exact hold

/-- The bytes of a run keep both items. -/
theorem bytes_agree {p : Params} (bytes : List Byte) {x : Block} {h : History} (hw : x.wf p = true)
    (ha : x.captureAgrees h = true) :
    (feedBlock p bytes x).1.captureAgrees (History.bytes p bytes x h) = true ∧
      (x.framesVerified h = true →
        (feedBlock p bytes x).1.framesVerified (History.bytes p bytes x h) = true) := by
  induction bytes generalizing x h with
  | nil => exact ⟨ha, id⟩
  | cons b rest ih =>
    obtain ⟨h1, h2⟩ := ih (processByte_wf b hw) (processByte_captureAgrees b hw ha)
    exact ⟨h1, fun hv => h2 (processByte_framesVerified b hw ha hv)⟩

end Sys2Proof.Machine
end

