-- ==== Sys2Proof/Laws/PerInstr.lean ====
section
/-! SUPPORT. Statements about every operation as syntax, one lemma a constructor. -/

namespace Sys2Proof.Laws

open Sys2Proof

/-- The word of an operation is its own row's word: `word & mask == pattern` for the row of the
opcode table that bears its mnemonic. -/
def TableRow.Statement (i : Instr) : Prop :=
  ∃ r ∈ opcodeTable, r.mnemonic = i.mnemonic ∧ (encode i).word &&& r.mask = r.pattern

theorem TableRow.reset : TableRow.Statement .reset := by
  refine ⟨⟨"RESET", 0xFFF, 0x000⟩, ?_, rfl, ?_⟩ <;> decide

theorem TableRow.config (cfg : Option CfgRecord) : TableRow.Statement (.config cfg) := by
  refine ⟨⟨"CONFIG", 0xFFF, 0x100⟩, by decide, rfl, ?_⟩; simp only [encode]; decide

theorem TableRow.crc16 (bytes : List Byte) : TableRow.Statement (.crc16 bytes) := by
  refine ⟨⟨"CRC16", 0xFFF, 0x200⟩, by decide, rfl, ?_⟩; simp only [encode]; decide

theorem TableRow.processByte (b : Byte) : TableRow.Statement (.processByte b) := by
  refine ⟨⟨"PROCESS_BYTE", 0xF00, 0x300⟩, by decide, rfl, ?_⟩; simp only [encode]; revert b; decide

theorem TableRow.inEnq (chunk : List Byte) : TableRow.Statement (.inEnq chunk) := by
  refine ⟨⟨"IN_ENQ", 0xFFF, 0x400⟩, by decide, rfl, ?_⟩; simp only [encode]; decide

theorem TableRow.inDeq : TableRow.Statement .inDeq := by
  refine ⟨⟨"IN_DEQ", 0xFFF, 0x500⟩, ?_, rfl, ?_⟩ <;> decide

theorem TableRow.step : TableRow.Statement .step := by
  refine ⟨⟨"STEP", 0xFFF, 0x600⟩, ?_, rfl, ?_⟩ <;> decide

theorem TableRow.drain : TableRow.Statement .drain := by
  refine ⟨⟨"DRAIN", 0xFFF, 0x700⟩, ?_, rfl, ?_⟩ <;> decide

theorem TableRow.outEnq (frame : Frame) : TableRow.Statement (.outEnq frame) := by
  refine ⟨⟨"OUT_ENQ", 0xFFF, 0x800⟩, by decide, rfl, ?_⟩; simp only [encode]; decide

theorem TableRow.outDeq : TableRow.Statement .outDeq := by
  refine ⟨⟨"OUT_DEQ", 0xFFF, 0x900⟩, ?_, rfl, ?_⟩ <;> decide

theorem TableRow.close : TableRow.Statement .close := by
  refine ⟨⟨"CLOSE", 0xFFF, 0xA00⟩, ?_, rfl, ?_⟩ <;> decide

end Sys2Proof.Laws
end

