-- ==== Sys2Proof/Tests/Slice0.lean ====
section
/-! SUPPORT. Tests: the decoding of words written out from 30 R59, the terms WellFormed refuses, one
step of each operation on the spec's vectors (95), and for every obligation with hypotheses states and
operands that meet them. Expected values come from `spec/95_test_vectors.md` or from the rule named. -/

namespace Sys2Proof.Tests

open Sys2Proof Sys2Proof.Machine

/-! ### Helpers -/

/-- Configuration TA of 95. -/
def ta : CfgRecord := ⟨[0xAA, 0x55, 0xC3, 0x3C], 4⟩

/-- Configuration TB of 95, the smallest. -/
def tb : CfgRecord := ⟨[0x7E], 1⟩

/-- Unbounded capacities and limits. -/
def free : Params := ⟨.inf, .inf, .inf, .inf⟩

/-- Given depths of the two queues. -/
def depths (inDepth outDepth : Nat) : Params := ⟨.fin inDepth, .fin outDepth, .inf, .inf⟩

/-- An instance with empty queues. -/
def inState (c : CfgRecord) (y : SyncState) (buf : List Byte) : Block := ⟨c, ⟨y, buf⟩, [], [], false⟩

/-- A machine that holds an instance. -/
def machine (p : Params) (x : Block) : State :=
  { State.reset with inst := .built x, params := p, straps := x.cfg }

/-- A machine with one command to run. -/
def running (p : Params) (x : Block) (c : Command) : State := { machine p x with pending := [.op c] }

/-- The construction an answer leaves. -/
def instOf : Answer → Option Construction
  | .next t => some t.inst
  | .fault _ => none
  | .refused _ => none

/-- The result an answer leaves. -/
def resultOf : Answer → Option Result
  | .next t => t.result
  | .fault _ => none
  | .refused _ => none

/-- Whether an answer is a refusal for want of an instance. -/
def refusedNoInstance : Answer → Bool
  | .refused r => decide (r = .noInstance)
  | .next _ => false
  | .fault _ => false

/-- Whether an answer is the refusal of a frame of a wrong length. -/
def refusedFrameLength : Answer → Bool
  | .refused r => decide (r = .frameLength)
  | .next _ => false
  | .fault _ => false

/-- What the decoder gives, as an option. -/
def decoded (c : Command) : Option Instr :=
  match decode c with
  | .ok i => some i
  | .error _ => none

/-! ### Decoding: every operation's word, tag in bits 11..8 and `imm` in bits 7..0 (30 R59) -/

theorem test_decode_reset : decoded ⟨0b0000_00000000, [], none⟩ = some .reset := by decide
theorem test_decode_config :
    decoded ⟨0b0001_00000000, [], some ta⟩ = some (.config (some ta)) := by decide
theorem test_decode_crc16 :
    decoded ⟨0b0010_00000000, [0x31, 0x32], none⟩ = some (.crc16 [0x31, 0x32]) := by decide
theorem test_decode_processByte :
    decoded ⟨0b0011_11000011, [], none⟩ = some (.processByte 0xC3) := by decide
theorem test_decode_inEnq :
    decoded ⟨0b0100_00000000, [0x44, 0xBF], none⟩ = some (.inEnq [0x44, 0xBF]) := by decide
theorem test_decode_inDeq : decoded ⟨0b0101_00000000, [], none⟩ = some .inDeq := by decide
theorem test_decode_step : decoded ⟨0b0110_00000000, [], none⟩ = some .step := by decide
theorem test_decode_drain : decoded ⟨0b0111_00000000, [], none⟩ = some .drain := by decide
theorem test_decode_outEnq :
    decoded ⟨0b1000_00000000, [0x41], none⟩ = some (.outEnq [0x41]) := by decide
theorem test_decode_outDeq : decoded ⟨0b1001_00000000, [], none⟩ = some .outDeq := by decide
theorem test_decode_close : decoded ⟨0b1010_00000000, [], none⟩ = some .close := by decide

/-- 30 R60: reserved tags and a nonzero `imm` in formats Z and V. -/
theorem test_decode_reserved :
    [decoded ⟨0xB00, [], none⟩, decoded ⟨0xFFF, [], none⟩, decoded ⟨0x701, [], none⟩,
      decoded ⟨0x480, [0x01], none⟩, decoded ⟨0xA01, [], none⟩] = List.replicate 5 none := by decide

/-- No two rows of the opcode table share a word. -/
theorem test_opcodeTable_disjoint :
    opcodeTable.Pairwise (fun a b => (a.pattern ^^^ b.pattern) &&& (a.mask &&& b.mask) ≠ 0) := by
  decide

/-- The host's two entry points on the table's words. -/
theorem test_decodeTableWord :
    decodeTableWord 16 0x3AA = some (.processByte 0xAA) ∧ decodeTableWord 16 0x900 = some .outDeq ∧
      decodeTableWord 16 0xB00 = none ∧ decodeTableWord 16 0x1000 = none := by decide

theorem test_withFetchWord_step :
    resultOf (step (State.reset.withFetchWord 16 0x3AA)) = some (.processed .none none) := by decide

/-! ### WellFormed: an ill-formed term for each check, which the check refuses -/

theorem test_params_refused :
    [Params.wellFormed ⟨.fin 0, .inf, .inf, .inf⟩, Params.wellFormed ⟨.inf, .fin 0, .inf, .inf⟩,
      Params.wellFormed ⟨.inf, .inf, .fin 0, .inf⟩, Params.wellFormed ⟨.inf, .inf, .inf, .fin 0⟩] =
      [false, false, false, false] := by decide

theorem test_cfg_refused :
    [CfgRecord.wellFormed free ⟨[], 4⟩, CfgRecord.wellFormed free ⟨[0x7E], 0⟩,
      CfgRecord.wellFormed ⟨.inf, .inf, .fin 3, .inf⟩ ta,
      CfgRecord.wellFormed ⟨.inf, .inf, .inf, .fin 3⟩ ta] = [false, false, false, false] := by decide

theorem test_instr_refused :
    [Instr.wellFormed 4 (.outEnq []), Instr.wellFormed 4 (.outEnq [1, 2, 3]),
      Instr.wellFormed 4 (.outEnq [1, 2, 3, 4, 5])] = [false, false, false] := by decide

theorem test_command_refused :
    [Command.wellFormed ⟨0xB00, [], none⟩, Command.wellFormed ⟨0xF00, [], none⟩,
      Command.wellFormed ⟨0x001, [], none⟩, Command.wellFormed ⟨0x480, [0x01], none⟩] =
      [false, false, false, false] := by decide

theorem test_wellFormed_accepts :
    Params.wellFormed (depths 1 1) = true ∧
      CfgRecord.wellFormed ⟨.inf, .inf, .fin 4, .fin 4⟩ ta = true ∧
      Instr.wellFormed 4 (.outEnq [1, 2, 3, 4]) = true ∧
      Command.wellFormed ⟨0x3FF, [], none⟩ = true := by decide

/-! ### One step of each operation (95) -/

/-- V25. -/
theorem test_reset :
    instOf (exec .reset (machine free
      ⟨ta, ⟨.capturing 2 0 0, [0x41, 0x42, 0, 0]⟩, [1, 2, 3], [[5, 6, 7, 8]], true⟩)) =
      some (.built ⟨ta, ⟨.seeking 0, [0, 0, 0, 0]⟩, [], [], false⟩) := by decide

/-- V23: the seven rows. -/
theorem test_config :
    [resultOf (exec (.config none) State.powerOn), resultOf (exec (.config (some ⟨[], 4⟩)) State.powerOn),
      resultOf (exec (.config (some ⟨ta.syncPattern, 0⟩)) State.powerOn),
      resultOf (exec (.config (some ⟨[], 0⟩)) State.powerOn),
      resultOf (exec (.config (some ⟨ta.syncPattern, 128⟩))
        { State.powerOn with params := ⟨.inf, .inf, .inf, .fin 64⟩ }),
      resultOf (exec (.config (some tb)) State.powerOn),
      resultOf (exec (.config (some ⟨ta.syncPattern, 128⟩)) State.powerOn)] =
      [some (.configured (some .errNullConfig)), some (.configured (some .errZeroSync)),
        some (.configured (some .errZeroPayload)), some (.configured (some .errZeroSync)),
        some (.configured (some .errResource)), some (.configured none), some (.configured none)] := by
  decide +kernel

/-- 43 R120, R122: what a construction leaves. -/
theorem test_config_instance :
    instOf (exec (.config (some ta)) State.powerOn) =
      some (.built (inState ta (.seeking 0) [0, 0, 0, 0])) ∧
    instOf (exec (.config none) (machine free (inState ta (.seeking 0) [0, 0, 0, 0]))) =
      some (.failed .errNullConfig) := by decide +kernel

/-- V1, V2, V4, V6, V7. -/
theorem test_crc16_short :
    [crc16 [], crc16 [0x00], crc16 [0xFF], crc16 [0x41], crc16 [0x00, 0x00],
      crc16 [0x41, 0x42, 0x43, 0x44], crc16 [0x00, 0x00, 0x00, 0xCC], crc16 [0x7E]] =
      [0xFFFF, 0xE1F0, 0xFF00, 0xB915, 0x1D0F, 0xBFFA, 0x9C00, 0x7EA9] := by decide +kernel

/-- V7 through the operation. -/
theorem test_crc16 :
    resultOf (exec (.crc16 [0x01, 0x02, 0x03, 0x04]) State.reset) = some (.checksum 0x89C3) := by
  decide +kernel

/-- V10a to V10e, one row an arm without a decision. -/
theorem test_processByte_undecided :
    [instOf (exec (.processByte 0xAA) (machine free (inState ta (.seeking 0) [1, 2, 3, 4]))),
      instOf (exec (.processByte 0x3C) (machine free (inState ta (.seeking 3) [1, 2, 3, 4]))),
      instOf (exec (.processByte 0xAA) (machine free (inState ta (.seeking 2) [1, 2, 3, 4]))),
      instOf (exec (.processByte 0x44)
        (machine free (inState ta (.capturing 3 0 0) [0x41, 0x42, 0x43, 0]))),
      instOf (exec (.processByte 0xBF)
        (machine free (inState ta (.capturing 4 0 0) [0x41, 0x42, 0x43, 0x44])))] =
      [some (.built (inState ta (.seeking 1) [1, 2, 3, 4])),
        some (.built (inState ta (.capturing 0 0 0) [0, 0, 0, 0])),
        some (.built (inState ta (.seeking 0) [1, 2, 3, 4])),
        some (.built (inState ta (.capturing 4 0 0) [0x41, 0x42, 0x43, 0x44])),
        some (.built (inState ta (.capturing 4 1 0xBF) [0x41, 0x42, 0x43, 0x44]))] := by decide

/-- The instance of V10f and V10g. -/
def deciding (p : Params) (outq : List Frame) : State :=
  machine p ⟨ta, ⟨.capturing 4 1 0xBF, [0x41, 0x42, 0x43, 0x44]⟩, [], outq, false⟩

/-- V10f, V10g, and V18's full output FIFO. -/
theorem test_processByte_decided :
    [instOf (exec (.processByte 0xFA) (deciding free [])),
      instOf (exec (.processByte 0xFB) (deciding free [])),
      instOf (exec (.processByte 0xFA) (deciding (depths 8 1) [[1, 2, 3, 4]]))] =
      [some (.built ⟨ta, ⟨.seeking 0, [0x41, 0x42, 0x43, 0x44]⟩, [],
          [[0x41, 0x42, 0x43, 0x44]], false⟩),
        some (.built ⟨ta, ⟨.seeking 0, [0x41, 0x42, 0x43, 0x44]⟩, [], [], false⟩),
        some (.built ⟨ta, ⟨.seeking 0, [0x41, 0x42, 0x43, 0x44]⟩, [], [[1, 2, 3, 4]], true⟩)] ∧
    [resultOf (exec (.processByte 0xFA) (deciding free [])),
      resultOf (exec (.processByte 0xFB) (deciding free [])),
      resultOf (exec (.processByte 0xFA) (deciding (depths 8 1) [[1, 2, 3, 4]]))] =
      [some (.processed .frameValid (some [0x41, 0x42, 0x43, 0x44])),
        some (.processed .crcError none),
        some (.processed .frameDropped (some [0x41, 0x42, 0x43, 0x44]))] := by decide +kernel

/-- An instance of TA in the reset state but for its queues. -/
def holding (p : Params) (inq : List Byte) (outq : List Frame) : State :=
  machine p ⟨ta, ⟨.seeking 0, [0, 0, 0, 0]⟩, inq, outq, false⟩

/-- V19: too much, just enough, the empty chunk on a full FIFO, and one byte too many. -/
theorem test_inEnq :
    [resultOf (exec (.inEnq [6, 7, 8, 9]) (holding (depths 8 1) [1, 2, 3, 4, 5] [])),
      resultOf (exec (.inEnq [6, 7, 8]) (holding (depths 8 1) [1, 2, 3, 4, 5] [])),
      resultOf (exec (.inEnq []) (holding (depths 8 1) [1, 2, 3, 4, 5, 6, 7, 8] [])),
      resultOf (exec (.inEnq [1]) (holding (depths 8 1) [1, 2, 3, 4, 5, 6, 7, 8] []))] =
      [some (.enqueued false), some (.enqueued true), some (.enqueued true),
        some (.enqueued false)] := by decide

theorem test_inEnq_instance :
    instOf (exec (.inEnq [6, 7, 8]) (holding (depths 8 1) [1, 2, 3, 4, 5] [])) =
      some (holding free [1, 2, 3, 4, 5, 6, 7, 8] []).inst ∧
    instOf (exec (.inEnq [6, 7, 8, 9]) (holding (depths 8 1) [1, 2, 3, 4, 5] [])) =
      some (holding free [1, 2, 3, 4, 5] []).inst := by decide

/-- 42 R101's example, and V20. -/
theorem test_inDeq :
    resultOf (exec .inDeq (holding free [0xAA, 0x55] [])) = some (.byteOut (some 0xAA)) ∧
    instOf (exec .inDeq (holding free [0xAA, 0x55] [])) = some (holding free [0x55] []).inst ∧
    resultOf (exec .inDeq (holding free [] [])) = some (.byteOut none) := by decide

/-- 42 R102's example; a full FIFO; an operand of a wrong length (60 R147). -/
theorem test_outEnq :
    instOf (exec (.outEnq [0x41, 0x42, 0x43, 0x44]) (holding free [] [])) =
      some (holding free [] [[0x41, 0x42, 0x43, 0x44]]).inst ∧
    resultOf (exec (.outEnq [5, 6, 7, 8]) (holding (depths 1 1) [] [[1, 2, 3, 4]])) =
      some (.enqueued false) ∧
    refusedFrameLength (exec (.outEnq [5, 6, 7]) (holding free [] [])) = true := by decide

/-- 42 R103's example, and V20. -/
theorem test_outDeq :
    resultOf (exec .outDeq (holding free [] [[1, 2, 3, 4], [5, 6, 7, 8]])) =
      some (.frameOut (some [1, 2, 3, 4])) ∧
    instOf (exec .outDeq (holding free [] [[1, 2, 3, 4], [5, 6, 7, 8]])) =
      some (holding free [] [[5, 6, 7, 8]]).inst ∧
    resultOf (exec .outDeq (holding free [] [])) = some (.frameOut none) := by decide

/-- V22 and V20. -/
theorem test_step :
    instOf (exec .step (machine free ⟨ta, ⟨.seeking 3, [9, 9, 9, 9]⟩, [0x3C, 0x41], [], false⟩)) =
      some (.built ⟨ta, ⟨.capturing 0 0 0, [0, 0, 0, 0]⟩, [0x41], [], false⟩) ∧
    resultOf (exec .step (holding free [] [])) = some (.stepped none) := by decide

/-- V21 (c), its second half. -/
theorem test_drain :
    resultOf (exec .drain (machine free
      ⟨ta, ⟨.capturing 2 0 0, [0x41, 0x42, 0, 0]⟩, [0x43, 0x44, 0xBF, 0xFA], [], false⟩)) =
      some (.drained [.none, .none, .none, .frameValid]) ∧
    instOf (exec .drain (machine free
      ⟨ta, ⟨.capturing 2 0 0, [0x41, 0x42, 0, 0]⟩, [0x43, 0x44, 0xBF, 0xFA], [], false⟩)) =
      some (.built ⟨ta, ⟨.seeking 0, [0x41, 0x42, 0x43, 0x44]⟩, [],
        [[0x41, 0x42, 0x43, 0x44]], false⟩) := by decide +kernel

/-- V24. -/
theorem test_close :
    [resultOf (exec .close (deciding free [])),
      resultOf (exec .close (machine free (inState ta (.seeking 2) [1, 2, 3, 4]))),
      resultOf (exec .close (machine free (inState ta (.seeking 0) [1, 2, 3, 4])))] =
      [some (.closed true), some (.closed false), some (.closed false)] ∧
    instOf (exec .close (deciding free [[1, 2, 3, 4]])) =
      some (.built ⟨ta, ⟨.seeking 0, [0x41, 0x42, 0x43, 0x44]⟩, [], [[1, 2, 3, 4]], false⟩) := by decide

/-- 43 R122, 60 R147. -/
theorem test_noInstance :
    [refusedNoInstance (exec .step State.powerOn), refusedNoInstance (exec .reset State.powerOn),
      refusedNoInstance (exec (.outEnq [1]) { State.powerOn with inst := .failed .errZeroSync })] =
      [true, true, true] := by decide

/-- 60 R148. -/
theorem test_illegalCommand :
    resultOf (step (running free (inState tb (.seeking 0) [0]) ⟨0xC00, [], none⟩)) =
      some .illegalOp := by decide

/-! ### Clock cycles (30 R62 to R64) -/

/-- The signals of a cycle in which every handshake is offered. -/
def offering : PortsIn := ⟨false, true, 0x99, true, false, true⟩

/-- 30 R64: a `STEP` that validates a frame while `outq` is full drops it even if the consumer takes a
frame in the same cycle; the byte offered is enqueued last. -/
def fullCycle : State :=
  { machine (depths 8 1)
      ⟨ta, ⟨.capturing 4 1 0xBF, [0x41, 0x42, 0x43, 0x44]⟩, [0xFA], [[1, 2, 3, 4]], false⟩ with
    pending := [.cycle offering] }

theorem test_cycle_drops :
    instOf (step fullCycle) =
      some (.built ⟨ta, ⟨.seeking 0, [0x41, 0x42, 0x43, 0x44]⟩, [0x99], [], true⟩) := by decide +kernel

/-- 30 R64: a byte pushed into an empty `inq` is not processed in the same cycle. -/
theorem test_cycle_push_into_empty :
    instOf (step { holding free [] [] with pending := [.cycle offering] }) =
      some (holding free [0x99] []).inst := by decide

/-- 30 R62: the first `rst` is the `CONFIG` of the constants. -/
theorem test_cycle_first_rst :
    instOf (step { State.powerOn with straps := tb, pending := [.cycle { offering with rst := true }] }) =
      some (.built (inState tb (.seeking 0) [0])) := by decide

/-! ### States and operands that meet the obligations' hypotheses -/

theorem witness_ResetStateTable :
    tb.wellFormed ⟨.fin 1, .fin 1, .fin 1, .fin 1⟩ = true ∧ ta.wellFormed free = true ∧
      (deciding free []).inst = .built ⟨ta, ⟨.capturing 4 1 0xBF, [0x41, 0x42, 0x43, 0x44]⟩, [], [],
        false⟩ := by decide +kernel

theorem witness_NoInstanceRefusesOperations :
    (∀ x, State.powerOn.inst ≠ .built x) ∧
      (∀ x, ({ State.powerOn with inst := .failed .errResource } : State).inst ≠ .built x) ∧
      ∀ cfg, Instr.crc16 [] ≠ .config cfg := by
  refine ⟨?_, ?_, ?_⟩ <;> (intros; simp [State.powerOn])

theorem witness_ResetRestoresInstance :
    (holding free [1] [[1, 2, 3, 4]]).inst =
        .built ⟨ta, ⟨.seeking 0, [0, 0, 0, 0]⟩, [1], [[1, 2, 3, 4]], false⟩ ∧
      ta.wellFormed (holding free [1] []).params = true ∧
      (instOf (exec .reset (holding free [1] []))).isSome = true ∧
      (instOf (exec (.config (some ta)) (holding free [1] []))).isSome = true := by decide

theorem witness_CloseDiscardsPartialFrame :
    (machine free (inState ta (.seeking 3) [1, 2, 3, 4])).inst =
        .built (inState ta (.seeking 3) [1, 2, 3, 4]) ∧
      (machine free (inState ta (.capturing 0 0 0) [0, 0, 0, 0])).inst =
        .built (inState ta (.capturing 0 0 0) [0, 0, 0, 0]) := by decide

theorem witness_ConfigurationIsImmutable :
    (∃ t, step (running free (inState tb (.seeking 0) [0]) ⟨0x000, [], none⟩) = .next t) ∧
      ∀ c cfg rest, (running free (inState tb (.seeking 0) [0]) ⟨0x000, [], none⟩).pending =
        .op c :: rest → decode c ≠ .ok (.config cfg) := by
  refine ⟨⟨_, rfl⟩, ?_⟩
  intro c cfg rest h
  simp only [running, List.cons.injEq, Input.op.injEq] at h
  rw [← h.1, show decode ⟨0x000, [], none⟩ = .ok .reset from rfl]
  simp

/-- `s.inst = .built x`, the one hypothesis of CrcFoldsBytesInOrder, InDeqRemovesOldestByte,
OutDeqRemovesOldestFrame, DrainEmptiesInputQueue and ProcessByteTotalWithFrame: with both queues empty,
and with both not. -/
theorem witness_instance :
    (holding free [] []).inst = .built ⟨ta, ⟨.seeking 0, [0, 0, 0, 0]⟩, [], [], false⟩ ∧
      (holding free [1, 2] [[1, 2, 3, 4]]).inst =
        .built ⟨ta, ⟨.seeking 0, [0, 0, 0, 0]⟩, [1, 2], [[1, 2, 3, 4]], false⟩ := by decide

theorem witness_FeedRunsProcessByte :
    ∃ x, (deciding free []).inst = .built x ∧ (feedBlock free [0xFA, 0xAA] x).2 = [.frameValid, .none] :=
  ⟨_, rfl, by decide +kernel⟩

/-- The first index and the last one before the end. -/
theorem witness_ProcessByteSMatch :
    ta.syncPattern[0]? = some 0xAA ∧ 0 + 1 < ta.syncPattern.length ∧
      ta.syncPattern[2]? = some 0xC3 ∧ 2 + 1 < ta.syncPattern.length ∧
      (inState ta (.seeking 2) []).sync.state = .seeking 2 := by decide

/-- The last index with `N = 4`, and with `N = 1`. -/
theorem witness_ProcessByteSComplete :
    ta.syncPattern[3]? = some 0x3C ∧ 3 + 1 = ta.syncPattern.length ∧
      tb.syncPattern[0]? = some 0x7E ∧ 0 + 1 = tb.syncPattern.length ∧
      (inState tb (.seeking 0) []).sync.state = .seeking 0 := by decide

theorem witness_ProcessByteSMismatch :
    0 < ta.syncPattern.length ∧ ta.syncPattern[0]? ≠ some 0x00 ∧ 3 < ta.syncPattern.length ∧
      ta.syncPattern[3]? ≠ some 0xAA ∧ (inState ta (.seeking 3) []).sync.state = .seeking 3 := by decide

theorem witness_NoFalseRestartAdvantage :
    1 < ta.syncPattern.length ∧ ta.syncPattern[1]? ≠ some 0xAA ∧ ta.syncPattern[3]? ≠ some 0xAA ∧
      ta.syncPattern[0]? = some 0xAA ∧ (inState ta (.seeking 1) []).sync.state = .seeking 1 := by decide

theorem witness_ProcessByteCPayload :
    (inState ta (.capturing 0 0 0) [0, 0, 0, 0]).sync.state = .capturing 0 0 0 ∧ 0 < ta.payloadLen ∧
      (inState ta (.capturing 3 0 0) [1, 2, 3, 0]).sync.state = .capturing 3 0 0 ∧
      3 < ta.payloadLen := by decide

theorem witness_ProcessByteCCheck1 :
    (inState ta (.capturing 4 0 0) [1, 2, 3, 4]).sync.state = .capturing ta.payloadLen 0 0 ∧
      (inState tb (.capturing 1 0 0) [1]).sync.state = .capturing tb.payloadLen 0 0 := by decide

/-- Each of the three outcomes: a match with room, a match without, and a mismatch by one. -/
theorem witness_ProcessByteCCheck2 :
    (inState ta (.capturing 4 1 0xBF) [0x41, 0x42, 0x43, 0x44]).sync.state =
        .capturing ta.payloadLen 1 0xBF ∧
      (inState ta (.capturing 4 1 0xBF) [0x41, 0x42, 0x43, 0x44]).sync.payloadBuffer.length =
        ta.payloadLen ∧
      (0xBF : Byte).toNat * 256 + (0xFA : Byte).toNat = (crc16 [0x41, 0x42, 0x43, 0x44]).toNat ∧
      (0xBF : Byte).toNat * 256 + (0xFB : Byte).toNat ≠ (crc16 [0x41, 0x42, 0x43, 0x44]).toNat ∧
      (depths 8 1).outDepth.admits (0 + 1) = true ∧ (depths 8 1).outDepth.admits (1 + 1) = false := by
  decide +kernel

theorem witness_OnlyVerifiedFramesAreEmitted :
    Block.wf free (inState ta (.capturing 4 1 0xBF) [0x41, 0x42, 0x43, 0x44]) = true ∧
      instOf (exec (.processByte 0xFA) (deciding free [])) = some (.built
        ⟨ta, ⟨.seeking 0, [0x41, 0x42, 0x43, 0x44]⟩, [], [[0x41, 0x42, 0x43, 0x44]], false⟩) := by
  decide +kernel

/-- A checksum that matches with room, one that matches without, one that does not match. -/
theorem witness_WholeWireFrameFromSeekingZero :
    Block.wf free (inState tb (.seeking 0) [9]) = true ∧
      (inState tb (.seeking 0) [9]).sync.state = .seeking 0 ∧ [(0x00 : Byte)].length = tb.payloadLen ∧
      Block.wf (depths 1 1) ⟨tb, ⟨.seeking 0, [9]⟩, [], [[1]], false⟩ = true ∧
      (depths 1 1).outDepth.admits (1 + 1) = false ∧
      (0xE1 : Byte).toNat * 256 + (0xF0 : Byte).toNat = (crc16 [0x00]).toNat ∧
      (0xE1 : Byte).toNat * 256 + (0xF1 : Byte).toNat ≠ (crc16 [0x00]).toNat := by decide +kernel

/-- The smallest configuration under the smallest limits. -/
theorem witness_RoundTripFromReset :
    tb.wellFormed ⟨.fin 1, .fin 1, .fin 1, .fin 1⟩ = true ∧
      Params.wellFormed ⟨.fin 1, .fin 1, .fin 1, .fin 1⟩ = true ∧
      (machine ⟨.fin 1, .fin 1, .fin 1, .fin 1⟩ (Block.fresh tb)).inst = .built (Block.fresh tb) ∧
      [(0xFF : Byte)].length = tb.payloadLen := by decide

theorem witness_ResyncAfterCorruption :
    (machine free (Block.fresh ta)).inst = .built (Block.fresh ta) ∧ ta.wellFormed free = true ∧ free.wellFormed = true ∧
      [(0x41 : Byte), 0x42, 0x43, 0x44].length = ta.payloadLen ∧
      (0xBFFB : Word16) ≠ crc16 [0x41, 0x42, 0x43, 0x44] := by decide +kernel

/-- `N = 1`, and `N = 4` with a partial match. -/
theorem witness_CaptureBeginsOnlyAfterSyncPattern :
    Block.wf free (inState tb (.seeking 0) [0]) = true ∧
      (processByte free (inState tb (.seeking 0) [0]) 0x7E).1.sync.state.mode = .capturing ∧
      Block.wf free (inState ta (.seeking 0) [0, 0, 0, 0]) = true ∧
      (feedBlock free [0xAA, 0x55, 0xC3] (inState ta (.seeking 0) [0, 0, 0, 0])).1.sync.state.mode =
        .seeking ∧
      (processByte free (feedBlock free [0xAA, 0x55, 0xC3]
        (inState ta (.seeking 0) [0, 0, 0, 0])).1 0x3C).1.sync.state.mode = .capturing := by decide +kernel

theorem witness_CaptureConsumesExactlyItsBytes :
    (inState tb (.capturing 0 0 0) [0]).sync.state = .capturing 0 0 0 ∧
      [(0x7E : Byte), 0x00, 0x00].length = tb.payloadLen + 2 := by decide

/-- A search, the start of a capture, and one byte before the decision. -/
theorem witness_AlwaysReturnsToSeeking :
    Block.wf free (inState tb (.seeking 0) [0]) = true ∧
      Block.wf free (inState tb (.capturing 0 0 0) [0]) = true ∧
      Block.wf free (inState tb (.capturing 1 1 0xE1) [0x00]) = true ∧
      [(0x7E : Byte), 0x00, 0x00].length = tb.payloadLen + 2 := by decide

theorem witness_RestartWithoutOverlapMissesPattern :
    (inState ta (.seeking 0) [0, 0, 0, 0]).sync.state = .seeking 0 ∧
      ta.syncPattern = 0xAA :: [0x55, 0xC3, 0x3C] ∧ [(0x55 : Byte), 0xC3, 0x3C] ≠ [] ∧
      (0xAA : Byte) ∉ [(0x55 : Byte), 0xC3, 0x3C] := by decide

/-- A chunk that just fits, one byte too many, and the empty chunk on a full FIFO. -/
theorem witness_InEnqTakesAllOrNothing :
    (holding (depths 8 1) [1, 2, 3, 4, 5] []).inst =
        .built ⟨ta, ⟨.seeking 0, [0, 0, 0, 0]⟩, [1, 2, 3, 4, 5], [], false⟩ ∧
      (depths 8 1).inDepth.admits (5 + 3) = true ∧ (depths 8 1).inDepth.admits (5 + 4) = false ∧
      (depths 8 1).inDepth.admits (8 + 0) = true := by decide

/-- A frame of `L` bytes with room, one without, and operands of lengths beside `L`. -/
theorem witness_OutEnqAppendsFrame :
    (holding (depths 8 1) [] [[1, 2, 3, 4]]).inst =
        .built ⟨ta, ⟨.seeking 0, [0, 0, 0, 0]⟩, [], [[1, 2, 3, 4]], false⟩ ∧
      [(5 : Byte), 6, 7, 8].length = ta.payloadLen ∧ (depths 8 1).outDepth.admits (0 + 1) = true ∧
      (depths 8 1).outDepth.admits (1 + 1) = false ∧ [(5 : Byte), 6, 7].length ≠ ta.payloadLen ∧
      [(5 : Byte), 6, 7, 8, 9].length ≠ ta.payloadLen := by decide

/-- An empty `inq` and one of a single byte: both clauses of StepIsDequeueThenProcess and of
DrainIsRepeatedStep, and EmptyDequeueIsIdempotent. -/
theorem witness_StepIsDequeueThenProcess :
    (holding free [] []).inst = .built ⟨ta, ⟨.seeking 0, [0, 0, 0, 0]⟩, [], [], false⟩ ∧
      (holding free [0xAA] []).inst = .built ⟨ta, ⟨.seeking 0, [0, 0, 0, 0]⟩, [0xAA], [], false⟩ ∧
      ([0xAA] : List Byte) ≠ [] := by decide

theorem witness_DrainTurnsComposeToDrain :
    (holding free [0xAA, 0x55] []).draining = none ∧
      ({ holding free [0xAA, 0x55] [] with
          pending := [.drainTurn, .drainTurn, .drainTurn, .cycle offering] } : State).pending =
        List.replicate ([(0xAA : Byte), 0x55].length + 1) .drainTurn ++ [.cycle offering] := by decide

/-- Chunks that just fit, and empty chunks into a full FIFO. -/
theorem witness_ChunkBoundariesAreInvisible :
    (depths 5 1).inDepth.admits
        ([(1 : Byte), 2].length + [(3 : Byte), 4].length + [(5 : Byte)].length) = true ∧
      (depths 2 1).inDepth.admits
        ([(1 : Byte), 2].length + ([] : List Byte).length + ([] : List Byte).length) = true ∧
      (holding (depths 5 1) [1, 2] []).inst =
        .built ⟨ta, ⟨.seeking 0, [0, 0, 0, 0]⟩, [1, 2], [], false⟩ := by decide

theorem witness_DirectDriveEqualsQueueDrive :
    (deciding (depths 2 1) []).inst = .built (inState ta (.capturing 4 1 0xBF)
        [0x41, 0x42, 0x43, 0x44]) ∧
      (inState ta (.capturing 4 1 0xBF) [0x41, 0x42, 0x43, 0x44]).inq = [] ∧
      (deciding (depths 2 1) []).params.inDepth.admits [(0xFA : Byte), 0xAA].length = true := by decide

theorem witness_QueuesAreFirstInFirstOut :
    (depths 4 2).inDepth.admits ([(1 : Byte), 2].length + [(3 : Byte)].length + [(4 : Byte)].length) =
        true ∧
      (∀ f ∈ [[(5 : Byte), 6, 7, 8]], f.length = ta.payloadLen) ∧
      (depths 4 2).outDepth.admits ([[(1 : Byte), 2, 3, 4]].length + [[(5 : Byte), 6, 7, 8]].length) =
        true := by decide

theorem witness_OverflowBitIsSticky :
    (∃ x t, (machine free ⟨tb, ⟨.seeking 0, [0]⟩, [], [], true⟩).inst = .built x ∧ x.outOvf = true ∧
      exec .outDeq (machine free ⟨tb, ⟨.seeking 0, [0]⟩, [], [], true⟩) = .next t) ∧
      Instr.outDeq ≠ .reset ∧ ∀ cfg, Instr.outDeq ≠ .config cfg :=
  ⟨⟨_, _, rfl, rfl, rfl⟩, by decide, by intro cfg h; cases h⟩

theorem witness_DecodeAndEncodeAgree : decode ⟨0x3FF, [], none⟩ = .ok (.processByte 0xFF) := rfl

/-- A reserved tag at each end of its range, and a nonzero `imm` at the least and the largest tag. -/
theorem witness_ReservedWordsAreIllegal :
    0xA < (0xB00 : CommandWord).toNat / 256 ∧ 0xA < (0xFFF : CommandWord).toNat / 256 ∧
      ((0x001 : CommandWord).toNat / 256 ≠ 0x3 ∧ (0x001 : CommandWord).toNat % 256 ≠ 0) ∧
      ((0xAFF : CommandWord).toNat / 256 ≠ 0x3 ∧ (0xAFF : CommandWord).toNat % 256 ≠ 0) ∧
      (running free (inState tb (.seeking 0) [0]) ⟨0xB00, [], none⟩).pending =
        [.op ⟨0xB00, [], none⟩] := by decide

/-- 30 R55 on a frame of two bytes. -/
theorem witness_FrameBusLayout :
    [(0x41 : Byte), 0x42][1]? = some 0x42 ∧ frameBus [0x41, 0x42] = 0x4241 := by decide

theorem witness_StepRunsDecodedOperation :
    (running free (inState tb (.seeking 0) [0]) ⟨0x37E, [], none⟩).pending =
        [.op ⟨0x37E, [], none⟩] ∧
      decode ⟨0x37E, [], none⟩ = .ok (.processByte 0x7E) ∧
      instOf (step (running free (inState tb (.seeking 0) [0]) ⟨0x37E, [], none⟩)) =
        some (.built (inState tb (.capturing 0 0 0) [0])) := by
  refine ⟨rfl, rfl, ?_⟩
  decide

theorem witness_EveryOperationCompletes :
    (machine free (inState tb (.seeking 0) [0])).inst = .built (inState tb (.seeking 0) [0]) ∧
      Instr.wellFormed tb.payloadLen (.outEnq [5]) = true ∧
      Instr.wellFormed tb.payloadLen .drain = true := by decide

/-- V10f with a frame already verified, and its past: the step answers, no internal operation is issued,
both records of the past agree, and the frame it verifies joins the record. -/
theorem witness_StepKeepsInvariants :
    ({ deciding free [[1, 2, 3, 4]] with pending := [.op ⟨0x3FA, [], none⟩] } : State).wf = true ∧
      Input.external (.op ⟨0x3FA, [], none⟩) = true ∧
      (deciding free [[1, 2, 3, 4]]).captureAgrees
        ⟨[0x41, 0x42, 0x43, 0x44], [[1, 2, 3, 4]]⟩ = true ∧
      (deciding free [[1, 2, 3, 4]]).framesVerified
        ⟨[0x41, 0x42, 0x43, 0x44], [[1, 2, 3, 4]]⟩ = true ∧
      History.after { deciding free [[1, 2, 3, 4]] with pending := [.op ⟨0x3FA, [], none⟩] }
        ⟨[0x41, 0x42, 0x43, 0x44], [[1, 2, 3, 4]]⟩ =
        ⟨[0x41, 0x42, 0x43, 0x44], [[1, 2, 3, 4], [0x41, 0x42, 0x43, 0x44]]⟩ ∧
      (instOf (step { deciding free [[1, 2, 3, 4]] with
        pending := [.op ⟨0x3FA, [], none⟩] })).isSome = true := by decide +kernel

/-- 30 R59: a direct `OUT_ENQ` is internal, so it is no external input, and the frame it enqueues is
not in the record of verified frames (log 13). -/
theorem test_outEnq_internal :
    Input.external (.op ⟨0x800, [5, 6, 7, 8], none⟩) = false ∧
      (holding free [] [[5, 6, 7, 8]]).framesVerified History.fresh = false := by decide

/-- Log 14: the port constants of an added instance are the record given to its `CONFIG`. -/
theorem test_addInstance :
    (addInstance free (some tb) [deciding free []]).map (fun s => s.straps) = [ta, tb] ∧
      (addInstance ⟨.inf, .inf, .inf, .fin 3⟩ (some ta) []).map (fun s => (s.inst, s.straps)) =
        [(.failed .errResource, ta)] := by decide

/-- A cycle on a good state with both queues full, in which all three operations happen; and the same
state for a cycle with `rst` and one with `close`, which the statement's other cases take. -/
theorem witness_ClockCycleIsAnInterleaving :
    fullCycle.wf = true ∧ fullCycle.pending = [.cycle offering] ∧
      ({ fullCycle with pending := [.cycle { offering with rst := true }] } : State).wf = true ∧
      ({ fullCycle with pending := [.cycle { offering with close := true }] } : State).wf = true := by
  decide

/-- A cycle whose `STEP` drops a frame, and one with nothing to process. -/
theorem witness_ClockCycleOutputs :
    fullCycle.inst = .built ⟨ta, ⟨.capturing 4 1 0xBF, [0x41, 0x42, 0x43, 0x44]⟩, [0xFA],
        [[1, 2, 3, 4]], false⟩ ∧ offering.rst = false ∧ offering.close = false ∧ offering.run = true ∧
      (holding free [] []).inst = .built ⟨ta, ⟨.seeking 0, [0, 0, 0, 0]⟩, [], [], false⟩ := by decide

theorem witness_FirstRstConstructs :
    (∀ x, ({ State.powerOn with pending := [.cycle { offering with rst := true }] } : State).inst ≠
        .built x) ∧
      ∀ x, ({ State.powerOn with inst := .failed .errZeroSync, pending := [.cycle offering] } :
        State).inst ≠ .built x := by
  refine ⟨?_, ?_⟩ <;> (intro x; simp [State.powerOn])

theorem witness_FailedConstructionIsDeadOnPorts :
    (∀ i ∈ [offering, offering], i.rst = false) ∧ [offering, offering] ≠ [] ∧
      [Input.cycle offering, .cycle offering, .drainTurn] =
        [offering, offering].map .cycle ++ [.drainTurn] := by decide

theorem witness_InstancesAreIndependent :
    ∃ t, exec .reset (deciding free []) = .next t ∧
      ([State.reset, deciding free [], holding free [1] []] : Fleet)[1]? = some (deciding free []) :=
  ⟨_, rfl, by rfl⟩

end Sys2Proof.Tests
end

section
/-! The checksum field on the wire (20 R35): what splitting a checksum into two bytes and joining two
received bytes do to the numbers they carry. -/

namespace Sys2Proof.Machine

open Sys2Proof

@[simp] theorem zext16_toNat (b : Byte) : (zext16 b).toNat = b.toNat := by
  have hb := b.isLt
  rw [zext16, BitVec.toNat_setWidth, Nat.mod_eq_of_lt (by omega)]

@[simp] theorem crcInput_toNat (b : Byte) : (crcInput b).toNat = b.toNat * 256 := by
  have hb := b.isLt
  rw [crcInput, BitVec.toNat_shiftLeft, zext16_toNat, Nat.shiftLeft_eq,
    Nat.mod_eq_of_lt (by omega)]

@[simp] theorem highByte_toNat (v : Word16) : (highByte v).toNat = v.toNat / 256 := by
  have hv := v.isLt
  rw [highByte, BitVec.extractLsb'_toNat, Nat.shiftRight_eq_div_pow, Nat.mod_eq_of_lt (by omega)]

@[simp] theorem lowByte_toNat (v : Word16) : (lowByte v).toNat = v.toNat % 256 := by
  rw [lowByte, BitVec.extractLsb'_toNat, Nat.shiftRight_zero]

/-- The first byte received is the high one (20 R35): the two bytes do not overlap, so or-ing them is
adding them. -/
@[simp] theorem receivedChecksum_toNat (first second : Byte) :
    (receivedChecksum first second).toNat = first.toNat * 256 + second.toNat :=
  calc (receivedChecksum first second).toNat
    _ = (crcInput first).toNat ||| (zext16 second).toNat := BitVec.toNat_or ..
    _ = first.toNat <<< 8 ||| second.toNat := by simp [Nat.shiftLeft_eq]
    _ = first.toNat <<< 8 + second.toNat := (Nat.shiftLeft_add_eq_or_of_lt second.isLt _).symm
    _ = first.toNat * 256 + second.toNat := by rw [Nat.shiftLeft_eq]

/-- What a sender splits, a receiver joins again. -/
@[simp] theorem receivedChecksum_highByte_lowByte (v : Word16) :
    receivedChecksum (highByte v) (lowByte v) = v := by
  apply BitVec.eq_of_toNat_eq
  rw [receivedChecksum_toNat, highByte_toNat, lowByte_toNat, Nat.div_add_mod']

/-- Settles O49: the arithmetic of the received field, and the field a sender builds as its witness. -/
theorem checksumFieldIsBigEndian : Obligations.ChecksumFieldIsBigEndian :=
  ⟨receivedChecksum_toNat, fun v => ⟨highByte v, lowByte v, rfl, receivedChecksum_highByte_lowByte v⟩⟩

end Sys2Proof.Machine
end

section
/-! The CRC engine (40 R70 to R72): its rounds, its byte update and its fold, said of the numbers and
the iterations the rules speak of. -/

namespace Sys2Proof.Machine

open Sys2Proof

/-! ### One round and eight (40 R71, R72) -/

/-- The bit `crc_round` tests, as a comparison of numbers. -/
theorem highBit_eq_decide (r : Word16) : r.getLsbD 15 = decide (0x8000 ≤ r.toNat) :=
  BitVec.msb_eq_decide r

/-- The shift without the lost bit: the top bit is 0. -/
theorem shiftLeft_one_toNat_of_lt {r : Word16} (h : r.toNat < 0x8000) :
    (r <<< 1).toNat = 2 * r.toNat := by
  rw [BitVec.toNat_shiftLeft, Nat.shiftLeft_eq]; omega

/-- The shift drops bit 15 where it is 1 (40 R72). -/
theorem shiftLeft_one_toNat_of_le {r : Word16} (h : 0x8000 ≤ r.toNat) :
    (r <<< 1).toNat = 2 * r.toNat - 0x10000 := by
  have hr := r.isLt
  rw [BitVec.toNat_shiftLeft, Nat.shiftLeft_eq]; omega

theorem crcRound_of_lt {r : Word16} (h : r.toNat < 0x8000) : crcRound r = r <<< 1 := by
  rw [crcRound, highBit_eq_decide, if_neg (by simpa using h)]

theorem crcRound_of_le {r : Word16} (h : 0x8000 ≤ r.toNat) :
    crcRound r = (r <<< 1) ^^^ crcPoly := by
  rw [crcRound, highBit_eq_decide, if_pos (by simpa using h)]

theorem crcRound_toNat (r : Word16) : (crcRound r).toNat =
    if r.toNat < 0x8000 then 2 * r.toNat else (2 * r.toNat - 0x10000) ^^^ 0x1021 := by
  split
  case isTrue h => rw [crcRound_of_lt h, shiftLeft_one_toNat_of_lt h]
  case isFalse h =>
    have hle := Nat.le_of_not_lt h
    rw [crcRound_of_le hle, BitVec.toNat_xor, shiftLeft_one_toNat_of_le hle]; rfl

theorem crcRounds_eq_iterate (n : Nat) (r : Word16) : crcRounds n r = crcRound^[n] r := by
  induction n generalizing r with
  | zero => rfl
  | succ n ih => rw [crcRounds, ih, Function.iterate_succ_apply]

/-- The byte enters in the high half of the register (40 R71). -/
theorem xor_crcInput (r : Word16) (b : Byte) :
    r ^^^ crcInput b = BitVec.ofNat 16 (r.toNat ^^^ (b.toNat * 256)) := by
  rw [← crcInput_toNat, ← BitVec.toNat_xor, BitVec.ofNat_toNat, BitVec.setWidth_eq]

theorem crcUpdate_eq_iterate (r : Word16) (b : Byte) :
    crcUpdate r b = crcRound^[8] (BitVec.ofNat 16 (r.toNat ^^^ (b.toNat * 256))) := by
  rw [crcUpdate, crcRounds_eq_iterate, xor_crcInput]

/-- Settles O8: the two branches of a round, and the iteration a byte update is. -/
theorem crcRoundAndUpdate : Obligations.CrcRoundAndUpdate :=
  ⟨crcRound_toNat, crcUpdate_eq_iterate⟩

/-! ### The fold over the bytes (40 R70) -/

theorem crcFold_eq_foldl (r : Word16) (bytes : List Byte) :
    crcFold r bytes = bytes.foldl crcUpdate r := by
  induction bytes generalizing r with
  | nil => rfl
  | cons b rest ih => rw [crcFold, ih, List.foldl_cons]

theorem crc16_eq_foldl (bytes : List Byte) : crc16 bytes = bytes.foldl crcUpdate 0xFFFF :=
  crcFold_eq_foldl crcInit bytes

/-- Tag `0x2` is `CRC16` of the operand beside the word (30 R59). -/
theorem decode_of_crc16Tag {w : CommandWord} (htag : (commandTag w).toNat = 0x2)
    (himm : commandImm w = 0) (bytes : List Byte) (cfg : Option CfgRecord) :
    decode ⟨w, bytes, cfg⟩ = .ok (.crc16 bytes) := by
  simp only [decode, htag, decodePlain, himm, if_true]

theorem exec_crc16 (bytes : List Byte) (s : State) :
    exec (.crc16 bytes) s = onBlock s (fun x => (x, .checksum (crc16 bytes))) := rfl

/-- The instance is written back as it was, so only the result changes. -/
theorem answer_sameInstance {s : State} {i : Construction} (h : s.inst = i) (r : Result) :
    s.answer i r = { s with result := some r } := by
  subst h; rfl

/-- Settles O9: `CRC16` is an operation on the instance that keeps it, and its loop is the fold. -/
theorem crcFoldsBytesInOrder : Obligations.CrcFoldsBytesInOrder := by
  refine ⟨fun bytes => decode_of_crc16Tag (by decide) (by decide) bytes none, fun s x bytes hx => ?_⟩
  rw [exec_crc16, onBlock_built hx, answer_sameInstance hx, crc16_eq_foldl]

end Sys2Proof.Machine
end

section
/-! `PROCESS_BYTE` as an operation on the machine, arm by arm (41 R80 to R89, R95): an arm says what
`processByte` leaves of the instance, and the operation writes that back with its result. -/

namespace Sys2Proof.Machine

open Sys2Proof

theorem exec_processByte {s : State} {x y : Block} {b : Byte} {evt : Event} {f : Option Frame}
    (hx : s.inst = .built x) (h : processByte s.params x b = (y, evt, f)) :
    exec (.processByte b) s =
      .next { s with inst := .built y, result := some (.processed evt f) } := by
  change onBlock s _ = _
  rw [onBlock_built hx, h]
  rfl

/-! ### The arms that decide nothing (41 R81 to R85) -/

theorem exec_processByte_undecided {s : State} {x : Block} {b : Byte} {y : Synchronizer}
    (hx : s.inst = .built x) (h : syncStep x.cfg x.sync b = (y, .undecided)) :
    exec (.processByte b) s = .next { s with
      inst := .built { x with sync := y }, result := some (.processed .none none) } :=
  exec_processByte hx (processByte_undecided h)

/-- Settles O14: arm S-match of the core, which decides nothing. -/
theorem processByteSMatch : Obligations.ProcessByteSMatch :=
  fun _ _ _ _ hx hs hb hk => exec_processByte_undecided hx (syncStep_sMatch hs hb hk)

/-- Settles O15: arm S-complete of the core, which decides nothing. -/
theorem processByteSComplete : Obligations.ProcessByteSComplete :=
  fun _ _ _ _ hx hs hb hk => exec_processByte_undecided hx (syncStep_sComplete hs hb hk)

/-- Settles O16: arm S-mismatch of the core, which decides nothing. -/
theorem processByteSMismatch : Obligations.ProcessByteSMismatch :=
  fun _ _ _ _ hx hs _ hb => exec_processByte_undecided hx (syncStep_sMismatch hs hb)

/-- Settles O17: S-mismatch does not ask what the byte is, so `SYNC[0]` is no exception. -/
theorem noFalseRestartAdvantage : Obligations.NoFalseRestartAdvantage :=
  fun s x k b hx hs _ hk hb _ => ⟨_, _, processByteSMismatch s x k b hx hs hk hb, rfl, rfl⟩

/-- Settles O18: arm C-payload of the core, which decides nothing. -/
theorem processByteCPayload : Obligations.ProcessByteCPayload :=
  fun _ _ _ _ _ _ hx hs hf => exec_processByte_undecided hx (syncStep_cPayload hs hf)

/-- Settles O19: arm C-check1 of the core, which decides nothing. -/
theorem processByteCCheck1 : Obligations.ProcessByteCCheck1 :=
  fun _ _ _ _ hx hs => exec_processByte_undecided hx (syncStep_cCheck1 hs)

/-! ### The arm that decides (41 R86 to R89) -/

/-- In the checksum stage of a buffer of `L` bytes the copy compared is the buffer itself. -/
theorem syncStep_cCheck2_wholeBuffer {c : CfgRecord} {y : Synchronizer} {b hi : Byte}
    (hs : y.state = .capturing c.payloadLen 1 hi) (hlen : y.payloadBuffer.length = c.payloadLen) :
    syncStep c y b = ({ y with state := .seeking 0 },
      if receivedChecksum hi b = crc16 y.payloadBuffer then .matched y.payloadBuffer
      else .mismatched) := by
  rw [syncStep_cCheck2 hs, ← hlen, List.take_length]

theorem processByte_cCheck2_reject {p : Params} {x : Block} {b hi : Byte}
    (hs : x.sync.state = .capturing x.cfg.payloadLen 1 hi)
    (hlen : x.sync.payloadBuffer.length = x.cfg.payloadLen)
    (hne : receivedChecksum hi b ≠ crc16 x.sync.payloadBuffer) :
    processByte p x b =
      ({ x with sync := ⟨.seeking 0, x.sync.payloadBuffer⟩ }, .crcError, none) :=
  processByte_mismatched (by rw [syncStep_cCheck2_wholeBuffer hs hlen, if_neg hne])

theorem processByte_cCheck2_accept {p : Params} {x : Block} {b hi : Byte}
    (hs : x.sync.state = .capturing x.cfg.payloadLen 1 hi)
    (hlen : x.sync.payloadBuffer.length = x.cfg.payloadLen)
    (he : receivedChecksum hi b = crc16 x.sync.payloadBuffer)
    (hr : p.outDepth.admits (x.outq.length + 1) = true) :
    processByte p x b =
      ({ x with
          sync := ⟨.seeking 0, x.sync.payloadBuffer⟩
          outq := x.outq ++ [x.sync.payloadBuffer] },
        .frameValid, some x.sync.payloadBuffer) :=
  processByte_matched_room (by rw [syncStep_cCheck2_wholeBuffer hs hlen, if_pos he]) hr

theorem processByte_cCheck2_drop {p : Params} {x : Block} {b hi : Byte}
    (hs : x.sync.state = .capturing x.cfg.payloadLen 1 hi)
    (hlen : x.sync.payloadBuffer.length = x.cfg.payloadLen)
    (he : receivedChecksum hi b = crc16 x.sync.payloadBuffer)
    (hr : p.outDepth.admits (x.outq.length + 1) = false) :
    processByte p x b =
      ({ x with sync := ⟨.seeking 0, x.sync.payloadBuffer⟩, outOvf := true },
        .frameDropped, some x.sync.payloadBuffer) :=
  processByte_matched_full (by rw [syncStep_cCheck2_wholeBuffer hs hlen, if_pos he]) hr

/-- The comparison of 41 R86, on numbers: high byte first. -/
theorem receivedChecksum_eq_iff (hi b : Byte) (v : Word16) :
    receivedChecksum hi b = v ↔ hi.toNat * 256 + b.toNat = v.toNat := by
  rw [← BitVec.toNat_inj, receivedChecksum_toNat]

/-- Settles O20: the three outcomes are the two comparisons, checksum first, then room. -/
theorem processByteCCheck2 : Obligations.ProcessByteCCheck2 := by
  intro s x hi b hx hlen hs
  simp only [ne_eq, ← receivedChecksum_eq_iff]
  split
  next hne => exact exec_processByte hx (processByte_cCheck2_reject hs hlen hne)
  next he =>
    have he := not_not.mp he
    split
    next hr => exact exec_processByte hx (processByte_cCheck2_accept hs hlen he hr)
    next hr =>
      exact exec_processByte hx (processByte_cCheck2_drop hs hlen he (Bool.eq_false_iff.mpr hr))

end Sys2Proof.Machine
end

section
/-! Runs of `PROCESS_BYTE` (30 R65, `FEED`) with their whole results, frames included, as a function
`replay` on what the machine holds: `runAll_pseudoFeed` ties it to the operations, and
`feedBlock_eq_replay` to `feedBlock`. -/

namespace Sys2Proof.Machine

open Sys2Proof

/-- The instance left by `PROCESS_BYTE` of each byte in order, and the results returned. -/
def replay (p : Params) : List Byte → Block → Block × List Result
  | [], x => (x, [])
  | b :: rest, x =>
    match processByte p x b with
    | (y, evt, f) => ((replay p rest y).1, .processed evt f :: (replay p rest y).2)

@[simp] theorem replay_nil (p : Params) (x : Block) : replay p [] x = (x, []) := rfl

theorem replay_cons {p : Params} {x y : Block} {b : Byte} {evt : Event} {f : Option Frame}
    (h : processByte p x b = (y, evt, f)) (rest : List Byte) :
    replay p (b :: rest) x =
      ((replay p rest y).1, .processed evt f :: (replay p rest y).2) := by
  simp only [replay, h]

theorem replay_singleton {p : Params} {x y : Block} {b : Byte} {evt : Event} {f : Option Frame}
    (h : processByte p x b = (y, evt, f)) : replay p [b] x = (y, [.processed evt f]) :=
  replay_cons h []

theorem replay_append {p : Params} {a : List Byte} {x y : Block} {rs : List Result}
    (h : replay p a x = (y, rs)) (b : List Byte) :
    replay p (a ++ b) x = ((replay p b y).1, rs ++ (replay p b y).2) := by
  induction a generalizing x rs with
  | nil => cases h; rfl
  | cons c rest ih =>
    rcases hc : processByte p x c with ⟨z, evt, f⟩
    rw [replay_cons hc] at h
    cases h
    rw [List.cons_append, replay_cons hc, ih rfl]
    rfl

theorem runAll_cons {i : Instr} {rest : List Instr} {s t u : State} {rs : List Result}
    (hi : exec i s = .next t) (hrest : runAll rest t = .next (u, rs)) :
    runAll (i :: rest) s = .next (u, t.result.toList ++ rs) := by
  simp only [runAll, hi, hrest]

/-- `FEED` on the machine is `replay` on its instance; nothing but the instance and the latched result
is written. -/
theorem runAll_pseudoFeed (bytes : List Byte) {s : State} {x : Block} (hx : s.inst = .built x) :
    ∃ r, runAll (pseudoFeed bytes) s =
      .next ({ s with inst := .built (replay s.params bytes x).1, result := r },
        (replay s.params bytes x).2) := by
  induction bytes generalizing s x with
  | nil => exact ⟨s.result, by rw [replay_nil, ← hx]; rfl⟩
  | cons b rest ih =>
    rcases hb : processByte s.params x b with ⟨y, evt, f⟩
    obtain ⟨r, hr⟩ :=
      ih (s := { s with inst := .built y, result := some (.processed evt f) }) rfl
    rw [replay_cons hb]
    exact ⟨r, runAll_cons (exec_processByte hx hb) hr⟩

theorem feedBlock_eq_replay (p : Params) (bytes : List Byte) (x : Block) :
    feedBlock p bytes x = ((replay p bytes x).1, (replay p bytes x).2.filterMap Result.event) := by
  induction bytes generalizing x with
  | nil => rfl
  | cons b rest ih =>
    rcases hb : processByte p x b with ⟨y, evt, f⟩
    simp only [replay_cons hb, feedBlock, hb, ih, List.filterMap_cons, Result.event]

end Sys2Proof.Machine
end

section
/-! A wire frame from `Seeking(0)`, stage by stage (41 R93), and what it leaves from the reset state
(41 R96, R97). -/

namespace Sys2Proof.Machine

open Sys2Proof

/-! ### The stages -/

/-- The rest of the sync pattern, from the index reached so far, begins a capture. -/
theorem replay_syncRest (p : Params) {rest seen : List Byte} {x : Block}
    (hp : x.cfg.syncPattern = seen ++ rest) (hne : rest ≠ [])
    (hs : x.sync.state = .seeking seen.length) :
    replay p rest x =
      ({ x with sync := ⟨.capturing 0 0 0, List.replicate x.cfg.payloadLen 0⟩ },
        List.replicate rest.length (.processed .none none)) := by
  induction rest generalizing seen x with
  | nil => exact absurd rfl hne
  | cons b rest ih =>
    have hb : x.cfg.syncPattern[seen.length]? = some b := by simp [hp]
    have hn : x.cfg.n = seen.length + (rest.length + 1) := by simp [CfgRecord.n, hp]
    cases rest with
    | nil => exact replay_singleton (processByte_undecided (syncStep_sComplete hs hb hn.symm))
    | cons b' rest' =>
      have hk : seen.length + 1 < x.cfg.n := by rw [hn, List.length_cons]; omega
      rw [replay_cons (processByte_undecided (syncStep_sMatch hs hb hk)),
        ih (seen := seen ++ [b]) (by simp [hp]) (List.cons_ne_nil _ _) (by simp)]
      rfl

/-- The rest of a payload completes the buffer behind the bytes stored so far. -/
theorem replay_payloadRest (p : Params) {rest : List Byte} {x : Block} {fill : Nat} {cf : Fin 2}
    {hi : Byte} (hs : x.sync.state = .capturing fill cf hi)
    (hlen : x.sync.payloadBuffer.length = x.cfg.payloadLen)
    (hf : fill + rest.length = x.cfg.payloadLen) :
    replay p rest x =
      ({ x with sync := ⟨.capturing x.cfg.payloadLen cf hi, x.sync.payloadBuffer.take fill ++ rest⟩ },
        List.replicate rest.length (.processed .none none)) := by
  induction rest generalizing x fill with
  | nil =>
    have hf : fill = x.cfg.payloadLen := hf
    rw [List.append_nil, List.take_of_length_le (by omega), ← hf, ← hs]
    rfl
  | cons b rest ih =>
    rw [List.length_cons] at hf
    rw [replay_cons (processByte_undecided (syncStep_cPayload hs (by omega))),
      ih (fill := fill + 1) rfl (by simpa using hlen) (by simpa using by omega)]
    have hbuf : (x.sync.payloadBuffer.set fill b).take (fill + 1) ++ rest =
        x.sync.payloadBuffer.take fill ++ b :: rest := by
      rw [List.take_add_one, List.take_set_of_le (Nat.le_refl _),
        List.getElem?_set_self (by omega)]
      simp
    rw [hbuf]
    rfl

/-- All of a wire frame but its last byte leaves the block in the checksum stage, nothing decided. -/
theorem replay_upToCheck1 (p : Params) {x : Block} {payload : List Byte} (c1 : Byte)
    (hs : x.sync.state = .seeking 0) (hn : 1 ≤ x.cfg.n) (hlen : payload.length = x.cfg.payloadLen) :
    replay p (x.cfg.syncPattern ++ payload ++ [c1]) x =
      ({ x with sync := ⟨.capturing x.cfg.payloadLen 1 c1, payload⟩ },
        List.replicate (x.cfg.n + x.cfg.payloadLen + 1) (.processed .none none)) := by
  have hsync := replay_syncRest p (seen := []) (x := x) rfl (List.ne_nil_of_length_pos hn) hs
  have hpayload := replay_payloadRest p (rest := payload)
    (x := { x with sync := ⟨.capturing 0 0 0, List.replicate x.cfg.payloadLen 0⟩ })
    rfl List.length_replicate (by simpa using hlen)
  have hcheck := replay_singleton (processByte_undecided (p := p) (b := c1)
    (x := { x with sync := ⟨.capturing x.cfg.payloadLen 0 0, payload⟩ }) (syncStep_cCheck1 rfl))
  rw [List.append_assoc, replay_append hsync, replay_append hpayload]
  simp only [List.take_zero, List.nil_append]
  rw [hcheck, hlen, ← List.replicate_one, List.replicate_append_replicate,
    List.replicate_append_replicate, ← Nat.add_assoc]
  rfl

/-- The last byte of a wire frame, after all the others. -/
theorem replay_wireFrameWith (p : Params) {x y : Block} {payload : List Byte} {v : Word16}
    {evt : Event} {f : Option Frame} (hs : x.sync.state = .seeking 0) (hn : 1 ≤ x.cfg.n)
    (hlen : payload.length = x.cfg.payloadLen)
    (hlast : processByte p
      { x with sync := ⟨.capturing x.cfg.payloadLen 1 (highByte v), payload⟩ } (lowByte v) =
        (y, evt, f)) :
    replay p (wireFrameWith x.cfg payload v) x =
      (y, List.replicate (x.cfg.n + x.cfg.payloadLen + 1) (.processed .none none) ++
        [.processed evt f]) := by
  have hsplit : wireFrameWith x.cfg payload v =
      x.cfg.syncPattern ++ payload ++ [highByte v] ++ [lowByte v] := by
    simp [wireFrameWith, checksumField]
  rw [hsplit, replay_append (replay_upToCheck1 p _ hs hn hlen), replay_singleton hlast]

theorem replay_wrongFrame (p : Params) {x : Block} {payload : List Byte} {v : Word16}
    (hs : x.sync.state = .seeking 0) (hn : 1 ≤ x.cfg.n) (hlen : payload.length = x.cfg.payloadLen)
    (hv : v ≠ crc16 payload) :
    replay p (wireFrameWith x.cfg payload v) x =
      ({ x with sync := ⟨.seeking 0, payload⟩ },
        List.replicate (x.cfg.n + x.cfg.payloadLen + 1) (.processed .none none) ++
          [.processed .crcError none]) :=
  replay_wireFrameWith p hs hn hlen
    (processByte_cCheck2_reject rfl hlen (by rwa [receivedChecksum_highByte_lowByte]))

theorem replay_correctFrame {p : Params} {x : Block} {payload : List Byte}
    (hs : x.sync.state = .seeking 0) (hn : 1 ≤ x.cfg.n) (hlen : payload.length = x.cfg.payloadLen)
    (hr : p.outDepth.admits (x.outq.length + 1) = true) :
    replay p (wireFrame x.cfg payload) x =
      ({ x with sync := ⟨.seeking 0, payload⟩, outq := x.outq ++ [payload] },
        List.replicate (x.cfg.n + x.cfg.payloadLen + 1) (.processed .none none) ++
          [.processed .frameValid (some payload)]) :=
  replay_wireFrameWith p hs hn hlen
    (processByte_cCheck2_accept rfl hlen (receivedChecksum_highByte_lowByte _) hr)

/-! ### From the reset state -/

/-- Under legal capacities an empty output FIFO has room. -/
theorem outDepth_admits_one {p : Params} (h : p.wellFormed = true) : p.outDepth.admits 1 = true := by
  simp only [Params.wellFormed, Bool.and_eq_true] at h
  obtain ⟨⟨⟨-, hout⟩, -⟩, -⟩ := h
  exact hout

/-- On empty queues under legal capacities a correct frame is delivered, whatever the buffer held. -/
theorem replay_correctFrame_emptyQueues {p : Params} {c : CfgRecord} {payload : List Byte}
    (hp : p.wellFormed = true) (hn : 1 ≤ c.n) (hlen : payload.length = c.payloadLen)
    (buf : List Byte) :
    replay p (wireFrame c payload) ⟨c, ⟨.seeking 0, buf⟩, [], [], false⟩ =
      (⟨c, ⟨.seeking 0, payload⟩, [], [payload], false⟩,
        List.replicate (c.n + c.payloadLen + 1) (.processed .none none) ++
          [.processed .frameValid (some payload)]) :=
  replay_correctFrame (x := ⟨c, ⟨.seeking 0, buf⟩, [], [], false⟩) rfl hn hlen
    (outDepth_admits_one hp)

/-- Settles O25: the operations are the replay on the fresh instance, whose queues are empty. -/
theorem roundTripFromReset : Obligations.RoundTripFromReset := by
  intro s c payload hc hp hx hlen
  obtain ⟨hn, -, -, -⟩ := (cfgWf_iff _ _).mp hc
  obtain ⟨r, hrun⟩ := runAll_pseudoFeed (wireFrame c payload) hx
  rw [Block.fresh, replay_correctFrame_emptyQueues hp hn hlen] at hrun
  exact ⟨_, hrun, rfl⟩

/-- Settles O26: the wrong frame leaves `Seeking(0)` with empty queues, so the correct one is received
as in the round trip. -/
theorem resyncAfterCorruption : Obligations.ResyncAfterCorruption := by
  intro s c first second wrong hc hp hx hfirst hsecond hwrong
  obtain ⟨hn, -, -, -⟩ := (cfgWf_iff _ _).mp hc
  obtain ⟨r, hrun⟩ := runAll_pseudoFeed (wireFrameWith c first wrong ++ wireFrame c second) hx
  have hbad : replay s.params (wireFrameWith c first wrong) (Block.fresh c) =
      (⟨c, ⟨.seeking 0, first⟩, [], [], false⟩, _) :=
    replay_wrongFrame _ (x := Block.fresh c) rfl hn hfirst hwrong
  rw [replay_append hbad, replay_correctFrame_emptyQueues hp hn hsecond, ← List.append_assoc] at hrun
  exact ⟨_, hrun, rfl⟩

end Sys2Proof.Machine
end

section
/-! A capture begins only right after the sync pattern (41 R94): along every run from `Seeking(0)`,
the bytes counted by `matchIndex` are the last ones received. -/

namespace Sys2Proof.Machine

open Sys2Proof

/-- After `bytes`, the last `k` of them are the first `k` sync bytes, and before the `j`-th of these
the state was `Seeking(j)`. -/
def MatchedLast (p : Params) (x : Block) (bytes : List Byte) (k : Nat) : Prop :=
  x.cfg.syncPattern.take k <:+ bytes ∧
    ∀ j, j < k → (feedBlock p (bytes.take (bytes.length - k + j)) x).1.sync.state = .seeking j

theorem matchedLast_zero (p : Params) (x : Block) (bytes : List Byte) : MatchedLast p x bytes 0 :=
  ⟨by simp, by simp⟩

/-- One more sync byte, received in `Seeking` at its own index. -/
theorem MatchedLast.concat {p : Params} {x : Block} {bytes : List Byte} {k : Nat} {b : Byte}
    (h : MatchedLast p x bytes k) (hs : (feedBlock p bytes x).1.sync.state = .seeking k)
    (hb : x.cfg.syncPattern[k]? = some b) : MatchedLast p x (bytes ++ [b]) (k + 1) := by
  obtain ⟨hsuffix, hseek⟩ := h
  have hk : k < x.cfg.syncPattern.length := (List.getElem?_eq_some_iff.mp hb).1
  have hkb : k ≤ bytes.length := by simpa [Nat.min_eq_left hk.le] using hsuffix.length_le
  refine ⟨?_, fun j hj => ?_⟩
  · obtain ⟨pre, hpre⟩ := hsuffix
    exact ⟨pre, by rw [List.take_add_one, hb, ← List.append_assoc, hpre]; rfl⟩
  · rw [List.length_append, List.length_singleton, Nat.add_sub_add_right,
      List.take_append_of_le_length (by omega)]
    rcases Nat.lt_succ_iff_lt_or_eq.mp hj with hlt | rfl
    · exact hseek j hlt
    · rwa [Nat.sub_add_cancel hkb, List.take_length]

/-! ### What the core's next state says of the byte (41 R81 to R83) -/

/-- The index goes up only by the sync byte at it. -/
theorem syncStep_seeking_succ {c : CfgRecord} {y : Synchronizer} {b : Byte} {k : Nat}
    (h : (syncStep c y b).1.state = .seeking (k + 1)) :
    y.state = .seeking k ∧ c.syncPattern[k]? = some b := by
  unfold syncStep at h
  split at h
  next m hm =>
    split at h
    next hb =>
      split at h
      next => cases h; exact ⟨hm, hb⟩
      next => cases h
    next => cases h
  next =>
    split at h
    next => cases h
    next => split at h <;> cases h

/-- A capture begins only by the last sync byte. -/
theorem syncStep_begins_capture {c : CfgRecord} {y : Synchronizer} {b : Byte} {k : Nat}
    (hs : y.state = .seeking k) (h : (syncStep c y b).1.state.mode = .capturing) :
    c.syncPattern[k]? = some b ∧ k + 1 = c.n := by
  by_cases hb : c.syncPattern[k]? = some b
  · have hlt : k < c.n := (List.getElem?_eq_some_iff.mp hb).1
    refine ⟨hb, Nat.le_antisymm hlt (Nat.le_of_not_lt fun hk => ?_)⟩
    rw [syncStep_sMatch hs hb hk] at h
    cases h
  · rw [syncStep_sMismatch hs hb] at h
    cases h

/-! ### Along a run -/

theorem feedBlock_concat (p : Params) (bytes : List Byte) (b : Byte) (x : Block) :
    (feedBlock p (bytes ++ [b]) x).1 = (processByte p (feedBlock p bytes x).1 b).1 := by
  simp only [feedBlock_eq_replay, replay_append (Prod.mk.eta (p := replay p bytes x)).symm]
  rfl

@[simp] theorem feedBlock_cfg (p : Params) (bytes : List Byte) (x : Block) :
    (feedBlock p bytes x).1.cfg = x.cfg := by
  induction bytes using List.reverseRecOn with
  | nil => rfl
  | append_singleton bytes b ih => rw [feedBlock_concat, processByte_cfg, ih]

theorem matchedLast_of_seeking {p : Params} {x : Block} (hx : x.sync.state = .seeking 0)
    (bytes : List Byte) {k : Nat} (hk : (feedBlock p bytes x).1.sync.state = .seeking k) :
    MatchedLast p x bytes k := by
  induction bytes using List.reverseRecOn generalizing k with
  | nil =>
    obtain rfl : 0 = k := SyncState.seeking.inj (hx.symm.trans hk)
    exact matchedLast_zero p x []
  | append_singleton bytes b ih =>
    cases k with
    | zero => exact matchedLast_zero p x _
    | succ k =>
      rw [feedBlock_concat, processByte_sync, feedBlock_cfg] at hk
      obtain ⟨hs, hb⟩ := syncStep_seeking_succ hk
      exact (ih hs).concat hs hb

/-- Settles O27: the byte that begins a capture is the last sync byte, after the first `N - 1`. -/
theorem captureBeginsOnlyAfterSyncPattern : Obligations.CaptureBeginsOnlyAfterSyncPattern := by
  intro p x bytes b _ hx hseeking hcapturing
  cases hs : (feedBlock p bytes x).1.sync.state with
  | capturing fill cf hi => rw [hs] at hseeking; cases hseeking
  | seeking k =>
    rw [processByte_sync, feedBlock_cfg] at hcapturing
    obtain ⟨hb, hn⟩ := syncStep_begins_capture hs hcapturing
    obtain ⟨hsuffix, hseek⟩ := (matchedLast_of_seeking hx bytes hs).concat hs hb
    rw [hn] at hsuffix hseek
    have hlen : x.cfg.n ≤ bytes.length + 1 := by simpa [CfgRecord.n] using hsuffix.length_le
    refine ⟨by simpa [CfgRecord.n] using hsuffix, fun j hj => ?_⟩
    have hle : bytes.length + 1 - x.cfg.n + j ≤ bytes.length := by omega
    simpa [List.take_append_of_le_length hle] using hseek j hj

end Sys2Proof.Machine
end

section
/-! The operations of the queues and the engine on the machine (42 R100 to R104, R107): each writes
back what the shared operation leaves of the instance, with its code. -/

namespace Sys2Proof.Machine

open Sys2Proof

/-! ### One rule per operation -/

theorem onBlock_answer {s : State} {x y : Block} {f : Block → Block × Result} {r : Result}
    (hx : s.inst = .built x) (h : f x = (y, r)) : onBlock s f = .next (s.answer (.built y) r) := by
  rw [onBlock_built hx, h]

theorem exec_inEnq {s : State} {x y : Block} {chunk : List Byte} {ok : Bool}
    (hx : s.inst = .built x) (h : enqueueChunk s.params x chunk = (y, ok)) :
    exec (.inEnq chunk) s = .next (s.answer (.built y) (.enqueued ok)) :=
  onBlock_answer hx (by rw [h])

theorem exec_inDeq {s : State} {x y : Block} {b : Option Byte}
    (hx : s.inst = .built x) (h : dequeueByte x = (y, b)) :
    exec .inDeq s = .next (s.answer (.built y) (.byteOut b)) :=
  onBlock_answer hx (by rw [h])

theorem exec_outDeq {s : State} {x y : Block} {f : Option Frame}
    (hx : s.inst = .built x) (h : dequeueFrame x = (y, f)) :
    exec .outDeq s = .next (s.answer (.built y) (.frameOut f)) :=
  onBlock_answer hx (by rw [h])

theorem exec_step {s : State} {x y : Block} {evt : Option Event}
    (hx : s.inst = .built x) (h : engineStep s.params x = (y, evt)) :
    exec .step s = .next (s.answer (.built y) (.stepped evt)) :=
  onBlock_answer hx (by rw [h])

theorem exec_drain {s : State} {x y : Block} {evts : List Event}
    (hx : s.inst = .built x) (h : drainBlock s.params x = (y, evts)) :
    exec .drain s = .next (s.answer (.built y) (.drained evts)) :=
  onBlock_answer hx (by rw [h])

/-! ### An empty queue is left alone -/

theorem exec_inDeq_empty {s : State} {x : Block} (hx : s.inst = .built x) (hq : x.inq = []) :
    exec .inDeq s = .next { s with result := some (.byteOut none) } := by
  rw [exec_inDeq hx (dequeueByte_nil hq), answer_sameInstance hx]

theorem exec_outDeq_empty {s : State} {x : Block} (hx : s.inst = .built x) (hq : x.outq = []) :
    exec .outDeq s = .next { s with result := some (.frameOut none) } := by
  rw [exec_outDeq hx (dequeueFrame_nil hq), answer_sameInstance hx]

theorem exec_step_empty {s : State} {x : Block} (hx : s.inst = .built x) (hq : x.inq = []) :
    exec .step s = .next { s with result := some (.stepped none) } := by
  rw [exec_step hx (engineStep_nil hq), answer_sameInstance hx]

/-! ### The operations settled -/

/-- Tag `0x4` is `IN_ENQ` of the bytes beside the word (30 R59). -/
theorem decode_of_inEnqTag {w : CommandWord} (htag : (commandTag w).toNat = 0x4)
    (himm : commandImm w = 0) (bytes : List Byte) (cfg : Option CfgRecord) :
    decode ⟨w, bytes, cfg⟩ = .ok (.inEnq bytes) := by
  simp only [decode, htag, decodePlain, himm, if_true]

/-- Settles O31: the chunk has room or it has not. -/
theorem inEnqTakesAllOrNothing : Obligations.InEnqTakesAllOrNothing := by
  refine ⟨fun bytes => decode_of_inEnqTag (by decide) (by decide) bytes none,
    fun s x chunk hx => ?_⟩
  split
  next hroom => exact exec_inEnq hx (enqueueChunk_room hroom)
  next hfull =>
    rw [exec_inEnq hx (enqueueChunk_full (Bool.eq_false_iff.mpr hfull)), answer_sameInstance hx]

/-- Settles O32: `inq` is empty or has an oldest byte. -/
theorem inDeqRemovesOldestByte : Obligations.InDeqRemovesOldestByte := by
  refine ⟨rfl, fun s x hx => ?_⟩
  split
  next hq => exact exec_inDeq_empty hx hq
  next b rest hq => exact exec_inDeq hx (dequeueByte_cons hq)

/-- Settles O34: `outq` is empty or has an oldest Frame value. -/
theorem outDeqRemovesOldestFrame : Obligations.OutDeqRemovesOldestFrame := by
  refine ⟨rfl, fun s x hx => ?_⟩
  split
  next hq => exact exec_outDeq_empty hx hq
  next f rest hq => exact exec_outDeq hx (dequeueFrame_cons hq)

/-- Settles O35: `PROCESS_BYTE` does not see that the byte has already left `inq`. -/
theorem stepIsDequeueThenProcess : Obligations.StepIsDequeueThenProcess := by
  refine ⟨rfl, fun s x hx => ⟨exec_step_empty hx, fun b rest hq => ?_⟩⟩
  have hdeq := exec_inDeq hx (dequeueByte_cons hq)
  have hprocess := processByte_withInq s.params x b rest
  have hstep := exec_step hx (engineStep_cons (p := s.params) hq)
  exact ⟨_, _, _, _, hdeq, rfl, exec_processByte rfl hprocess, rfl, hstep⟩

/-! ### Polling an empty queue (42 R107) -/

/-- An operation that answers the same from a state whatever result is latched there, and leaves all
but that result, does so any number of times. -/
theorem runAll_replicate {i : Instr} {s : State} {v : Result}
    (h : ∀ r, exec i { s with result := r } = .next { s with result := some v })
    (n : Nat) (r : Option Result) :
    ∃ r', runAll (List.replicate n i) { s with result := r } =
      .next ({ s with result := r' }, List.replicate n v) := by
  induction n generalizing r with
  | zero => exact ⟨r, rfl⟩
  | succ n ih =>
    obtain ⟨r', hrest⟩ := ih (some v)
    exact ⟨r', runAll_cons (h r) hrest⟩

/-- Settles O41: every poll answers `EMPTY` from the instance the one before it left. -/
theorem emptyDequeueIsIdempotent : Obligations.EmptyDequeueIsIdempotent := by
  refine fun s x n hx => ⟨fun hq => ?_, fun hq => ?_⟩
  · obtain ⟨r, hrun⟩ := runAll_replicate
      (fun r => exec_inDeq_empty (s := { s with result := r }) hx hq) n s.result
    exact ⟨_, hrun, rfl⟩
  · obtain ⟨r, hrun⟩ := runAll_replicate
      (fun r => exec_outDeq_empty (s := { s with result := r }) hx hq) n s.result
    exact ⟨_, hrun, rfl⟩

end Sys2Proof.Machine
end

section
/-! `DRAIN` is `PROCESS_BYTE` of every byte in `inq`, in order (42 R105), so only the concatenation
of the chunks counts (42 R106). -/

namespace Sys2Proof.Machine

open Sys2Proof

theorem feedBlock_append (p : Params) (a c : List Byte) (x : Block) :
    feedBlock p (a ++ c) x =
      ((feedBlock p c (feedBlock p a x).1).1,
        (feedBlock p a x).2 ++ (feedBlock p c (feedBlock p a x).1).2) := by
  simp only [feedBlock_eq_replay, replay_append (Prod.mk.eta (p := replay p a x)).symm,
    List.filterMap_append]

/-- The loop's fuel is used up by the bytes of `inq`; what stood in `inq` before does not count. -/
theorem drainBlock_withInq (p : Params) (q : List Byte) (x : Block) :
    drainBlock p { x with inq := q } =
      ({ (feedBlock p q x).1 with inq := [] }, (feedBlock p q x).2) := by
  induction q generalizing x with
  | nil => rfl
  | cons b rest ih =>
    have hstep : engineStep p { x with inq := b :: rest } =
        ({ (processByte p x b).1 with inq := rest }, some (processByte p x b).2.1) := by
      rw [engineStep_cons rfl, processByte_withInq]
    have hrest : drainLoop p rest.length { (processByte p x b).1 with inq := rest } = _ :=
      ih (processByte p x b).1
    simp only [drainBlock, List.length_cons, drainLoop, hstep, hrest, feedBlock]

/-- Draining `a ++ c` is draining `a`, and then `c` from what that left. -/
theorem drainBlock_append (p : Params) {a : List Byte} {x y : Block} {e1 : List Event}
    (h : drainBlock p { x with inq := a } = (y, e1)) (c : List Byte) :
    drainBlock p { x with inq := a ++ c } =
      ((drainBlock p { y with inq := c }).1, e1 ++ (drainBlock p { y with inq := c }).2) := by
  rw [drainBlock_withInq] at h
  cases h
  rw [drainBlock_withInq p (a ++ c), drainBlock_withInq p c (feedBlock p a x).1, feedBlock_append]

@[simp] theorem drainBlock_inq (p : Params) (x : Block) : (drainBlock p x).1.inq = [] := by
  rw [show drainBlock p x = _ from drainBlock_withInq p x.inq x]

theorem runAll_inEnq {s t : State} {x : Block} {chunk : List Byte} {rest : List Instr}
    {rs : List Result} (hx : s.inst = .built x)
    (hroom : s.params.inDepth.admits (x.inq.length + chunk.length) = true)
    (hrest : runAll rest
      (s.answer (.built { x with inq := x.inq ++ chunk }) (.enqueued true)) = .next (t, rs)) :
    runAll (.inEnq chunk :: rest) s = .next (t, .enqueued true :: rs) :=
  runAll_cons (exec_inEnq hx (enqueueChunk_room hroom)) hrest

theorem runAll_drain {s t : State} {x y : Block} {evts : List Event} {rest : List Instr}
    {rs : List Result} (hx : s.inst = .built x) (h : drainBlock s.params x = (y, evts))
    (hrest : runAll rest (s.answer (.built y) (.drained evts)) = .next (t, rs)) :
    runAll (.drain :: rest) s = .next (t, .drained evts :: rs) :=
  runAll_cons (exec_drain hx h) hrest

/-- Settles O39: all three runs drain `x.inq ++ a ++ c`, the third in two parts. -/
theorem chunkBoundariesAreInvisible : Obligations.ChunkBoundariesAreInvisible := by
  intro s x a c hx hfit
  rcases hfirst : drainBlock s.params { x with inq := x.inq ++ a } with ⟨y, e1⟩
  rcases hsecond : drainBlock s.params { y with inq := y.inq ++ c } with ⟨z, e2⟩
  have hy : y.inq = [] := by rw [← drainBlock_inq s.params { x with inq := x.inq ++ a }, hfirst]
  have hwhole : drainBlock s.params { x with inq := x.inq ++ a ++ c } = (z, e1 ++ e2) := by
    rw [hy, List.nil_append] at hsecond
    rw [drainBlock_append _ hfirst, hsecond]
  have hac : s.params.inDepth.admits (x.inq.length + (a ++ c).length) = true :=
    admits_mono hfit (by simp; omega)
  have ha : s.params.inDepth.admits (x.inq.length + a.length) = true := admits_mono hfit (by omega)
  have hc : s.params.inDepth.admits ((x.inq ++ a).length + c.length) = true :=
    admits_mono hfit (by simp)
  have hc' : s.params.inDepth.admits (y.inq.length + c.length) = true :=
    admits_mono hfit (by simp [hy])
  refine ⟨s.answer (.built z) (.drained (e1 ++ e2)), s.answer (.built z) (.drained e2), e1, e2,
    ?_, ?_, ?_, rfl⟩
  · refine runAll_inEnq hx hac (runAll_drain rfl ?_ rfl)
    rw [← List.append_assoc]
    exact hwhole
  · refine runAll_inEnq hx ha (runAll_inEnq rfl hc (runAll_drain rfl ?_ rfl))
    exact hwhole
  · refine runAll_inEnq hx ha (runAll_drain rfl ?_
      (runAll_inEnq rfl hc' (runAll_drain rfl ?_ rfl)))
    · exact hfirst
    · exact hsecond

end Sys2Proof.Machine
end

section
/-! The owner's operations on an instance (43 R121 to R124): `RESET` leaves the instance that `CONFIG`
constructs from the configuration kept, and `CLOSE` moves only the synchronizer state. -/

namespace Sys2Proof.Machine

open Sys2Proof

/-! ### `RESET` and `CONFIG` (43 R121, R123) -/

theorem exec_reset {s : State} {x : Block} (hx : s.inst = .built x) :
    exec .reset s = .next (s.answer (.built (resetBlock x)) .done) :=
  onBlock_built hx _

/-- `RESET` as the spec defines it: the instance discarded, and one constructed with the same
configuration. -/
theorem resetBlock_eq_constructBlock (x : Block) : resetBlock x = constructBlock x.cfg := rfl

/-- A legal record passes every check: the converse of `checkConfig_ok`. -/
theorem checkConfig_of_wellFormed {p : Params} {c : CfgRecord} (h : c.wellFormed p = true) :
    checkConfig p (some c) = .ok c := by
  obtain ⟨hn, hnMax, hl, hlMax⟩ := (cfgWf_iff p c).mp h
  have hsync : c.n ≠ 0 := by omega
  have hpayload : c.payloadLen ≠ 0 := by omega
  simp [checkConfig, hsync, hpayload, hnMax, hlMax]

theorem exec_config_of_wellFormed {s : State} {c : CfgRecord} (h : c.wellFormed s.params = true) :
    exec (.config (some c)) s = .next (s.answer (.built (constructBlock c)) (.configured none)) := by
  change Host.Outcome.next (construct (some c) s) = _
  rw [construct, checkConfig_of_wellFormed h]

/-- Settles O5: `RESET` and `CONFIG` of the record kept both leave `constructBlock` of it. -/
theorem resetRestoresInstance : Obligations.ResetRestoresInstance := by
  refine ⟨rfl, fun s x hx => ⟨exec_reset hx, fun hwf t u ht hu => ?_⟩⟩
  rw [exec_reset hx] at ht
  rw [exec_config_of_wellFormed hwf] at hu
  cases ht
  cases hu
  simp only [answer_inst, resetBlock_eq_constructBlock]

/-! ### `CLOSE` (43 R124) -/

theorem exec_close {s : State} {x y : Block} {discarded : Bool}
    (hx : s.inst = .built x) (h : closeBlock x = (y, discarded)) :
    exec .close s = .next (s.answer (.built y) (.closed discarded)) :=
  onBlock_answer hx (by rw [h])

/-- A partial match is cleared, and nothing is discarded. -/
theorem closeBlock_seeking {x : Block} {k : Nat} (h : x.sync.state = .seeking k) :
    closeBlock x = ({ x with sync := ⟨.seeking 0, x.sync.payloadBuffer⟩ }, false) := by
  rw [closeBlock, h]
  rfl

/-- A partial frame is discarded, however much of it was captured. -/
theorem closeBlock_capturing {x : Block} {fill : Nat} {crcFill : Fin 2} {crcHi : Byte}
    (h : x.sync.state = .capturing fill crcFill crcHi) :
    closeBlock x = ({ x with sync := ⟨.seeking 0, x.sync.payloadBuffer⟩ }, true) := by
  rw [closeBlock, h]
  rfl

/-- Settles O6: the synchronizer was searching or capturing. -/
theorem closeDiscardsPartialFrame : Obligations.CloseDiscardsPartialFrame := by
  refine ⟨rfl, fun s x hx => ?_⟩
  split
  next k hseek => exact exec_close hx (closeBlock_seeking hseek)
  next fill crcFill crcHi hcapt => exact exec_close hx (closeBlock_capturing hcapt)

end Sys2Proof.Machine
end

section
/-! The decoder and the encoder (30 R59, R60): the two fields of a word and their numbers, what the
decoder says of every command, and the words the spec writes out. -/

namespace Sys2Proof

/-! ### The two fields of a word -/

@[simp] theorem commandTag_commandWord (tag : BitVec 4) (imm : Byte) :
    commandTag (commandWord tag imm) = tag :=
  BitVec.extractLsb'_append_eq_left

@[simp] theorem commandImm_commandWord (tag : BitVec 4) (imm : Byte) :
    commandImm (commandWord tag imm) = imm :=
  BitVec.extractLsb'_append_eq_right

theorem commandTag_toNat (w : CommandWord) : (commandTag w).toNat = w.toNat / 256 := by
  have hw := w.isLt
  rw [commandTag, BitVec.extractLsb'_toNat, Nat.shiftRight_eq_div_pow, Nat.mod_eq_of_lt (by omega)]

theorem commandImm_toNat (w : CommandWord) : (commandImm w).toNat = w.toNat % 256 := by
  rw [commandImm, BitVec.extractLsb'_toNat, Nat.shiftRight_zero]

theorem commandWord_toNat (tag : BitVec 4) (imm : Byte) :
    (commandWord tag imm).toNat = tag.toNat * 256 + imm.toNat := by
  have htag := commandTag_toNat (commandWord tag imm)
  have himm := commandImm_toNat (commandWord tag imm)
  rw [commandTag_commandWord] at htag
  rw [commandImm_commandWord] at himm
  omega

/-- A word is made of its two fields. -/
theorem commandWord_of_fields {w : CommandWord} {tag : BitVec 4} {imm : Byte}
    (htag : (commandTag w).toNat = tag.toNat) (himm : commandImm w = imm) :
    commandWord tag imm = w := by
  apply BitVec.eq_of_toNat_eq
  rw [commandWord_toNat, ← htag, ← himm, commandTag_toNat, commandImm_toNat, Nat.div_add_mod']

theorem commandImm_eq_zero_iff (w : CommandWord) : commandImm w = 0 ↔ w.toNat % 256 = 0 := by
  rw [← BitVec.toNat_inj, commandImm_toNat]
  rfl

/-! ### What the decoder says of a command -/

theorem decodePlain_eq_ok {w : CommandWord} {i j : Instr} :
    decodePlain w i = .ok j ↔ commandImm w = 0 ∧ i = j := by
  unfold decodePlain
  split
  next h => simp [h]
  next h => simpa using fun hz => absurd hz h

/-- A tag of `PROCESS_BYTE` accepts every `imm`; any other tag up to `0xA` accepts its own
operation's word alone; the tags above are reserved. -/
theorem decode_cases (c : Command) :
    ((commandTag c.word).toNat = 0x3 ∧ decode c = .ok (.processByte (commandImm c.word))) ∨
    (∃ tag i, (commandTag c.word).toNat = tag.toNat ∧ tag.toNat ≤ 0xA ∧ tag.toNat ≠ 0x3 ∧
      (encode i).word = commandWord tag 0 ∧ decode c = decodePlain c.word i) ∨
    (0xA < (commandTag c.word).toNat ∧ decode c = .error (.reservedTag (commandTag c.word))) := by
  unfold decode
  split
  next h => exact .inr (.inl ⟨0x0, .reset, h, by decide, by decide, rfl, rfl⟩)
  next h => exact .inr (.inl ⟨0x1, .config c.cfg, h, by decide, by decide, rfl, rfl⟩)
  next h => exact .inr (.inl ⟨0x2, .crc16 c.bytes, h, by decide, by decide, rfl, rfl⟩)
  next h => exact .inl ⟨h, rfl⟩
  next h => exact .inr (.inl ⟨0x4, .inEnq c.bytes, h, by decide, by decide, rfl, rfl⟩)
  next h => exact .inr (.inl ⟨0x5, .inDeq, h, by decide, by decide, rfl, rfl⟩)
  next h => exact .inr (.inl ⟨0x6, .step, h, by decide, by decide, rfl, rfl⟩)
  next h => exact .inr (.inl ⟨0x7, .drain, h, by decide, by decide, rfl, rfl⟩)
  next h => exact .inr (.inl ⟨0x8, .outEnq c.bytes, h, by decide, by decide, rfl, rfl⟩)
  next h => exact .inr (.inl ⟨0x9, .outDeq, h, by decide, by decide, rfl, rfl⟩)
  next h => exact .inr (.inl ⟨0xA, .close, h, by decide, by decide, rfl, rfl⟩)
  next =>
    refine .inr (.inr ⟨?_, rfl⟩)
    by_contra hle
    have hle := Nat.le_of_not_lt hle
    interval_cases (commandTag c.word).toNat <;> contradiction

/-- Any byte sequence and any record may stand beside the word of `PROCESS_BYTE` (log 5). -/
theorem decode_processByte (b : Byte) (bytes : List Byte) (cfg : Option CfgRecord) :
    decode ⟨commandWord 0x3 b, bytes, cfg⟩ = .ok (.processByte b) := by
  simp [decode]

theorem decode_encode (i : Instr) : decode (encode i) = .ok i := by
  cases i with
  | processByte b => exact decode_processByte b [] none
  | reset | config _ | crc16 _ | inEnq _ | inDeq | step | drain | outEnq _ | outDeq | close =>
    simp [encode, decode, decodePlain]

theorem encode_word_of_decode {c : Command} {i : Instr} (h : decode c = .ok i) :
    (encode i).word = c.word := by
  obtain ⟨htag, hd⟩ | ⟨tag, j, htag, -, -, hj, hd⟩ | ⟨-, hd⟩ := decode_cases c
  · rw [hd] at h
    cases h
    exact commandWord_of_fields htag rfl
  · rw [hd] at h
    obtain ⟨himm, rfl⟩ := decodePlain_eq_ok.mp h
    rw [hj]
    exact commandWord_of_fields htag himm
  · rw [hd] at h
    cases h

/-- The words that are not reserved (30 R60), as numbers. -/
theorem exists_decode_eq_ok_iff (c : Command) : (∃ i, decode c = .ok i) ↔
    c.word.toNat / 256 ≤ 0xA ∧ (c.word.toNat / 256 = 0x3 ∨ c.word.toNat % 256 = 0) := by
  rw [← commandTag_toNat, ← commandImm_eq_zero_iff]
  obtain ⟨htag, hd⟩ | ⟨tag, j, htag, hle, hne, -, hd⟩ | ⟨hgt, hd⟩ := decode_cases c
  · simp [hd, htag]
  · simp [hd, htag, hle, hne, decodePlain_eq_ok]
  · simp [hd, hgt]

/-- The word of `PROCESS_BYTE` as the number the spec writes (30 R59). -/
theorem commandWord_processByte (b : Byte) :
    commandWord 0x3 b = BitVec.ofNat 12 (0x300 + b.toNat) := by
  have hb := b.isLt
  apply BitVec.eq_of_toNat_eq
  rw [commandWord_toNat, BitVec.toNat_ofNat, Nat.mod_eq_of_lt (by omega)]
  rfl

theorem decode_processByte_number (b : Byte) (bytes : List Byte) (cfg : Option CfgRecord) :
    decode ⟨BitVec.ofNat 12 (0x300 + b.toNat), bytes, cfg⟩ = .ok (.processByte b) := by
  rw [← commandWord_processByte, decode_processByte]

/-- Settles O45: the round trip constructor by constructor, and the decoder's own case split. -/
theorem decodeAndEncodeAgree : Obligations.DecodeAndEncodeAgree :=
  ⟨decode_encode, fun _ _ => encode_word_of_decode⟩

/-- Settles O47: the six sample words, then the eleven words with anything beside them. -/
theorem sampleWordsDecode : Obligations.SampleWordsDecode := by
  refine ⟨rfl, rfl, rfl, rfl, rfl, rfl, fun b bytes cfg => ?_⟩
  refine ⟨?_, ?_, ?_, decode_processByte_number b bytes cfg, ?_, ?_, ?_, ?_, ?_, ?_, ?_⟩ <;>
  simp [decode, decodePlain, commandTag, commandImm]

end Sys2Proof
end

section
/-! What an operation and a step of the machine can do, said once (20 R43): `instanceEffect` is what
an operation leaves of an instance, `exec_effect` and `exec_next` tie it to `exec`, and `step_cases`
lists the inputs. -/

namespace Sys2Proof.Machine

open Sys2Proof

/-! ### Operations on an instance -/

/-- What an operation leaves of the instance it is applied to. `CONFIG` is applied to none (43
R120): `exec_config` says what it does. -/
def instanceEffect (p : Params) (x : Block) : Instr → Block
  | .reset => resetBlock x
  | .config _ => x
  | .crc16 _ => x
  | .processByte b => (processByte p x b).1
  | .inEnq chunk => (enqueueChunk p x chunk).1
  | .inDeq => (dequeueByte x).1
  | .step => (engineStep p x).1
  | .drain => (drainBlock p x).1
  | .outEnq frame => (enqueueFrame p x frame).1
  | .outDeq => (dequeueFrame x).1
  | .close => (closeBlock x).1

theorem exec_config (cfg : Option CfgRecord) (s : State) :
    exec (.config cfg) s = .next (construct cfg s) := rfl

theorem exec_outEnq {s : State} {x y : Block} {f : Frame} {ok : Bool} (hx : s.inst = .built x)
    (hl : f.length = x.cfg.payloadLen) (h : enqueueFrame s.params x f = (y, ok)) :
    exec (.outEnq f) s = .next (s.answer (.built y) (.enqueued ok)) := by
  change execOutEnq f s = _
  simp only [execOutEnq, hx, hl, if_true, h]

theorem exec_outEnq_wrongLength {s : State} {x : Block} {f : Frame} (hx : s.inst = .built x)
    (hl : f.length ≠ x.cfg.payloadLen) : exec (.outEnq f) s = .refused .frameLength := by
  change execOutEnq f s = _
  simp only [execOutEnq, hx, hl, if_false]

theorem exec_outEnq_noInstance {s : State} (h : ∀ x, s.inst ≠ .built x) (f : Frame) :
    exec (.outEnq f) s = .refused .noInstance := by
  change execOutEnq f s = _
  unfold execOutEnq
  split
  next x hx => exact absurd hx (h x)
  next => rfl
  next => rfl

/-- With a legal operand, an operation on an instance answers its effect on it. -/
theorem exec_effect {i : Instr} {s : State} {x : Block} (hx : s.inst = .built x)
    (hi : ∀ cfg, i ≠ .config cfg) (hl : i.wellFormed x.cfg.payloadLen = true) :
    ∃ r, exec i s = .next (s.answer (.built (instanceEffect s.params x i)) r) := by
  cases i with
  | config cfg => exact absurd rfl (hi cfg)
  | outEnq f => exact ⟨_, exec_outEnq hx (by simpa [Instr.wellFormed] using hl) rfl⟩
  | processByte b => exact ⟨_, exec_processByte hx rfl⟩
  | reset | crc16 _ | inEnq _ | inDeq | step | drain | outDeq | close =>
    exact ⟨_, onBlock_answer hx rfl⟩

/-- Everything an operation but `CONFIG` can do where it answers a next state: its operand was
legal, and it wrote its effect on the instance, and its result. -/
theorem exec_next {i : Instr} {s t : State} {x : Block} (hx : s.inst = .built x)
    (hi : ∀ cfg, i ≠ .config cfg) (h : exec i s = .next t) :
    i.wellFormed x.cfg.payloadLen = true ∧
      ∃ r, t = s.answer (.built (instanceEffect s.params x i)) r := by
  have hl : i.wellFormed x.cfg.payloadLen = true := by
    cases i with
    | outEnq f =>
      by_contra hne
      rw [exec_outEnq_wrongLength hx (by simpa [Instr.wellFormed] using hne)] at h
      cases h
    | reset | config _ | crc16 _ | processByte _ | inEnq _ | inDeq | step | drain | outDeq
    | close => rfl
  obtain ⟨r, hr⟩ := exec_effect hx hi hl
  rw [hr] at h
  cases h
  exact ⟨hl, r, rfl⟩

theorem exec_noInstance {i : Instr} {s : State} (h : ∀ x, s.inst ≠ .built x)
    (hi : ∀ cfg, i ≠ .config cfg) : exec i s = .refused .noInstance := by
  cases i with
  | config cfg => exact absurd rfl (hi cfg)
  | outEnq f => exact exec_outEnq_noInstance h f
  | reset | crc16 _ | processByte _ | inEnq _ | inDeq | step | drain | outDeq | close =>
    exact onBlock_noInstance h _

/-! ### `CONFIG` -/

theorem construct_of_ok {s : State} {cfg : Option CfgRecord} {c : CfgRecord}
    (h : checkConfig s.params cfg = .ok c) :
    construct cfg s = s.answer (.built (constructBlock c)) (.configured none) := by
  rw [construct, h]

theorem construct_of_error {s : State} {cfg : Option CfgRecord} {e : CfgError}
    (h : checkConfig s.params cfg = .error e) :
    construct cfg s = s.answer (.failed e) (.configured (some e)) := by
  rw [construct, h]

/-- `CONFIG` leaves a new instance of a legal record, or none; it writes nothing else but its
result. -/
theorem construct_cases (cfg : Option CfgRecord) (s : State) :
    ∃ i r, construct cfg s = s.answer i r ∧
      ((∃ e, i = .failed e) ∨
        ∃ c, c.wellFormed s.params = true ∧ i = .built (constructBlock c)) := by
  cases h : checkConfig s.params cfg with
  | ok c => exact ⟨_, _, construct_of_ok h, .inr ⟨c, (checkConfig_ok h).2, rfl⟩⟩
  | error e => exact ⟨_, _, construct_of_error h, .inl ⟨e, rfl⟩⟩

/-- Every operation that answers a next state writes the instance and the result, and nothing else.
-/
theorem exec_next_frame {i : Instr} {s t : State} (h : exec i s = .next t) :
    ∃ inst r, t = s.answer inst r := by
  by_cases hi : ∀ cfg, i ≠ .config cfg
  · cases hinst : s.inst with
    | built x =>
      obtain ⟨-, r, rfl⟩ := exec_next hinst hi h
      exact ⟨_, r, rfl⟩
    | failed e => rw [exec_noInstance (by simp [hinst]) hi] at h; cases h
    | unbuilt => rw [exec_noInstance (by simp [hinst]) hi] at h; cases h
  · obtain ⟨cfg, rfl⟩ := not_forall_not.mp hi
    obtain ⟨inst, r, hc, -⟩ := construct_cases cfg s
    rw [exec_config, hc] at h
    cases h
    exact ⟨inst, r, rfl⟩

/-! ### Engine turns (42 R105) -/

theorem drainTurn_nil {s : State} {x : Block} (hx : s.inst = .built x) (hq : x.inq = []) :
    drainTurn s =
      .next { s with result := some (.drained (s.draining.getD [])), draining := none } := by
  simp only [drainTurn, hx, engineStep_nil hq]
  rfl

theorem drainTurn_some {s : State} {x y : Block} {evt : Event} (hx : s.inst = .built x)
    (h : engineStep s.params x = (y, some evt)) :
    drainTurn s = .next { s with
      inst := .built y
      result := some (.stepped (some evt))
      draining := some (s.draining.getD [] ++ [evt]) } := by
  simp only [drainTurn, hx, h]
  rfl

theorem drainTurn_noInstance {s : State} (h : ∀ x, s.inst ≠ .built x) :
    drainTurn s = .refused .noInstance := by
  unfold drainTurn
  split
  next x hx => exact absurd hx (h x)
  next => rfl
  next => rfl

/-- An engine turn is a `STEP` of the instance, whatever becomes of the list of events. -/
theorem drainTurn_next {s t : State} (h : drainTurn s = .next t) :
    ∃ x r d, s.inst = .built x ∧
      t = { s with inst := .built (engineStep s.params x).1, result := r, draining := d } := by
  cases hinst : s.inst with
  | failed e => rw [drainTurn_noInstance (by simp [hinst])] at h; cases h
  | unbuilt => rw [drainTurn_noInstance (by simp [hinst])] at h; cases h
  | built x =>
    cases hq : x.inq with
    | nil =>
      rw [drainTurn_nil hinst hq] at h
      cases h
      exact ⟨x, _, _, rfl, by rw [engineStep_nil hq, hinst]⟩
    | cons b rest =>
      rw [drainTurn_some hinst (engineStep_cons hq)] at h
      cases h
      exact ⟨x, _, _, rfl, by rw [engineStep_cons hq]⟩

/-! ### Clock cycles (30 R62 to R64) -/

theorem portCycle_built {s : State} {x : Block} (hx : s.inst = .built x) (i : PortsIn) :
    portCycle i s = { s with
      inst := .built (cycleBlock s.params x i).1
      result := some (.ports
        (cycleOutputs s.params s.portCycles x (cycleBlock s.params x i).2))
      portCycles := s.portCycles + 1 } := by
  simp only [portCycle, hx]
  rfl

/-- With no instance a cycle writes only what an `rst` constructs, and what its ports show. -/
theorem portCycle_noInstance {s : State} (h : ∀ x, s.inst ≠ .built x) (i : PortsIn) :
    ∃ o, portCycle i s = { cycleUnbuilt i s with
      result := some (.ports o), portCycles := s.portCycles + 1 } := by
  cases hinst : s.inst with
  | built x => exact absurd hinst (h x)
  | failed e => simp only [portCycle, hinst]; exact ⟨_, rfl⟩
  | unbuilt => simp only [portCycle, hinst]; exact ⟨_, rfl⟩

theorem cycleUnbuilt_rst {i : PortsIn} (h : i.rst = true) (s : State) :
    cycleUnbuilt i s = construct (some s.straps) s := by
  simp [cycleUnbuilt, h]

theorem cycleUnbuilt_idle {i : PortsIn} (h : i.rst = false) (s : State) :
    cycleUnbuilt i s = s := by
  simp [cycleUnbuilt, h]

theorem cycleBlock_rst {i : PortsIn} (h : i.rst = true) (p : Params) (x : Block) :
    cycleBlock p x i = (resetBlock x, none) := by
  simp [cycleBlock, h]

theorem cycleBlock_noRst {i : PortsIn} (h : i.rst = false) (p : Params) (x : Block) :
    cycleBlock p x i =
      (cycleInEnq p (cyclePlan p x i) i (cycleOutDeq (cyclePlan p x i)
        (cycleEngine p (cyclePlan p x i) x).1), (cycleEngine p (cyclePlan p x i) x).2) := by
  simp [cycleBlock, h]

/-- The first effect of a cycle: `CLOSE` where it is asked for, else `STEP` where `run` is 1. That
`inq` may be empty is no case of its own: `STEP` then leaves the instance as it is. -/
theorem cycleEngine_cyclePlan (p : Params) (x : Block) (i : PortsIn) :
    cycleEngine p (cyclePlan p x i) x =
      if i.close = true then ((closeBlock x).1, none)
      else if i.run = true then engineStep p x else (x, none) := by
  cases hc : i.close with
  | true => simp [cycleEngine, cyclePlan, hc]
  | false =>
    cases hq : x.inq with
    | nil => simp [cycleEngine, cyclePlan, hc, inEmpty, hq, engineStep_nil hq]
    | cons b rest => simp [cycleEngine, cyclePlan, hc, inEmpty, hq]

/-- What each operation of a cycle keeps, the cycle keeps. -/
theorem cycleBlock_keeps {p : Params} {P : Block → Prop} (hreset : ∀ x, P x → P (resetBlock x))
    (hclose : ∀ x, P x → P (closeBlock x).1) (hstep : ∀ x, P x → P (engineStep p x).1)
    (hdeq : ∀ x, P x → P (dequeueFrame x).1)
    (henq : ∀ x chunk, P x → P (enqueueChunk p x chunk).1) {x : Block} (hx : P x) (i : PortsIn) :
    P (cycleBlock p x i).1 := by
  cases hr : i.rst with
  | true => rw [cycleBlock_rst hr]; exact hreset x hx
  | false =>
    have hengine : P (cycleEngine p (cyclePlan p x i) x).1 := by
      rw [cycleEngine_cyclePlan]
      split
      · exact hclose x hx
      · split
        · exact hstep x hx
        · exact hx
    have hout : P (cycleOutDeq (cyclePlan p x i) (cycleEngine p (cyclePlan p x i) x).1) := by
      unfold cycleOutDeq
      split
      · exact hdeq _ hengine
      · exact hengine
    rw [cycleBlock_noRst hr]
    change P (cycleInEnq _ _ _ _)
    unfold cycleInEnq
    split
    · exact henq _ _ hout
    · exact hout

/-! ### One step -/

theorem step_nil {s : State} (h : s.pending = []) : step s = .next s := by
  rw [step, h]

theorem step_op {s : State} {c : Command} {i : Instr} {rest : List Input}
    (h : s.pending = .op c :: rest) (hd : decode c = .ok i) : step s = exec i (s.took rest) := by
  simp only [step, h, hd]

theorem step_illegal {s : State} {c : Command} {e : DecodeReject} {rest : List Input}
    (h : s.pending = .op c :: rest) (hd : decode c = .error e) :
    step s = .next (illegalCommand (s.took rest)) := by
  simp only [step, h, hd]

theorem step_cycle {s : State} {i : PortsIn} {rest : List Input}
    (h : s.pending = .cycle i :: rest) : step s = .next (portCycle i (s.took rest)) := by
  simp only [step, h]

theorem step_drainTurn {s : State} {rest : List Input} (h : s.pending = .drainTurn :: rest) :
    step s = drainTurn (s.took rest) := by
  simp only [step, h]

/-- Everything a step can do where it answers a next state. -/
theorem step_cases {s t : State} (h : step s = .next t) :
    (s.pending = [] ∧ t = s) ∨
    (∃ c i rest, s.pending = .op c :: rest ∧ decode c = .ok i ∧ exec i (s.took rest) = .next t) ∨
    (∃ c e rest, s.pending = .op c :: rest ∧ decode c = .error e ∧
      t = illegalCommand (s.took rest)) ∨
    (∃ i rest, s.pending = .cycle i :: rest ∧ t = portCycle i (s.took rest)) ∨
    ∃ rest, s.pending = .drainTurn :: rest ∧ drainTurn (s.took rest) = .next t := by
  rcases hp : s.pending with _ | ⟨c | i | _, rest⟩
  · rw [step_nil hp] at h
    cases h
    exact .inl ⟨rfl, rfl⟩
  · cases hd : decode c with
    | ok i =>
      rw [step_op hp hd] at h
      exact .inr (.inl ⟨c, i, rest, rfl, hd, h⟩)
    | error e =>
      rw [step_illegal hp hd] at h
      cases h
      exact .inr (.inr (.inl ⟨c, e, rest, rfl, hd, rfl⟩))
  · rw [step_cycle hp] at h
    cases h
    exact .inr (.inr (.inr (.inl ⟨i, rest, rfl, rfl⟩)))
  · rw [step_drainTurn hp] at h
    exact .inr (.inr (.inr (.inr ⟨rest, rfl, h⟩)))

/-! ### Statements about commands as inputs -/

/-- Settles O51: the equation of `step` for a command that decodes. -/
theorem stepRunsDecodedOperation : Obligations.StepRunsDecodedOperation :=
  fun _ _ _ _ hp hd => step_op hp hd

/-- Settles O46: the accepted words, and the one thing a step does with any other. -/
theorem reservedWordsAreIllegal : Obligations.ReservedWordsAreIllegal := by
  refine ⟨exists_decode_eq_ok_iff, fun s c rest hp hres => ?_⟩
  cases hd : decode c with
  | ok i =>
    obtain ⟨htag, himm⟩ := (exists_decode_eq_ok_iff c).mp ⟨i, hd⟩
    omega
  | error e => exact step_illegal hp hd

end Sys2Proof.Machine
end

section
/-! Every step keeps the invariants of 10 R19, those that speak of the past included (items 4 and
6). -/

namespace Sys2Proof.Machine

open Sys2Proof

/-! ### The invariants of the machine, as propositions about its instance -/

theorem stateWf_iff (s : State) : s.wf = true ↔ ∀ x, s.inst = .built x → x.wf s.params = true := by
  unfold State.wf
  cases s.inst <;> simp

theorem stateCaptureAgrees_iff (s : State) (h : History) :
    s.captureAgrees h = true ↔ ∀ x, s.inst = .built x → x.captureAgrees h = true := by
  unfold State.captureAgrees
  cases s.inst <;> simp

theorem stateFramesVerified_iff (s : State) (h : History) :
    s.framesVerified h = true ↔ ∀ x, s.inst = .built x → x.framesVerified h = true := by
  unfold State.framesVerified
  cases s.inst <;> simp

/-! ### Items 1 to 3 and 5: `State.wf` -/

theorem drainBlock_wf {p : Params} {x : Block} (h : x.wf p = true) :
    (drainBlock p x).1.wf p = true :=
  drainLoop_wf _ h

theorem instanceEffect_wf {p : Params} {x : Block} {i : Instr} (h : x.wf p = true)
    (hl : i.wellFormed x.cfg.payloadLen = true) : (instanceEffect p x i).wf p = true := by
  cases i with
  | reset => exact resetBlock_wf h
  | config _ => exact h
  | crc16 _ => exact h
  | processByte b => exact processByte_wf b h
  | inEnq chunk => exact enqueueChunk_wf chunk h
  | inDeq => exact dequeueByte_wf h
  | step => exact engineStep_wf h
  | drain => exact drainBlock_wf h
  | outEnq f => exact enqueueFrame_wf h (by simpa [Instr.wellFormed] using hl)
  | outDeq => exact dequeueFrame_wf h
  | close => exact closeBlock_wf h

theorem construct_wf (cfg : Option CfgRecord) (s : State) : (construct cfg s).wf = true := by
  rw [stateWf_iff]
  obtain ⟨i, r, hc, ⟨e, rfl⟩ | ⟨c, hwf, rfl⟩⟩ := construct_cases cfg s
  · simp [hc]
  · rw [hc]
    rintro x ⟨rfl⟩
    exact constructBlock_wf hwf

theorem exec_wf {i : Instr} {s t : State} (hw : s.wf = true) (h : exec i s = .next t) :
    t.wf = true := by
  by_cases hi : ∀ cfg, i ≠ .config cfg
  · by_cases hinst : ∃ x, s.inst = .built x
    · obtain ⟨x, hx⟩ := hinst
      obtain ⟨hl, r, rfl⟩ := exec_next hx hi h
      rw [stateWf_iff]
      rintro y ⟨rfl⟩
      exact instanceEffect_wf ((stateWf_iff s).mp hw x hx) hl
    · rw [exec_noInstance (not_exists.mp hinst) hi] at h
      cases h
  · obtain ⟨cfg, rfl⟩ := not_forall_not.mp hi
    rw [exec_config] at h
    cases h
    exact construct_wf cfg s

theorem cycleBlock_wf {p : Params} {x : Block} (h : x.wf p = true) (i : PortsIn) :
    (cycleBlock p x i).1.wf p = true :=
  cycleBlock_keeps (P := fun x => x.wf p = true) (fun _ => resetBlock_wf) (fun _ => closeBlock_wf)
    (fun _ => engineStep_wf) (fun _ => dequeueFrame_wf) (fun _ chunk => enqueueChunk_wf chunk) h i

theorem portCycle_wf {s : State} (i : PortsIn) (hw : s.wf = true) : (portCycle i s).wf = true := by
  by_cases hinst : ∃ x, s.inst = .built x
  · obtain ⟨x, hx⟩ := hinst
    rw [portCycle_built hx, stateWf_iff]
    rintro y ⟨rfl⟩
    exact cycleBlock_wf ((stateWf_iff s).mp hw x hx) i
  · obtain ⟨o, ho⟩ := portCycle_noInstance (not_exists.mp hinst) i
    rw [ho]
    change (cycleUnbuilt i s).wf = true
    unfold cycleUnbuilt
    split
    · exact construct_wf _ s
    · exact hw

theorem drainTurn_wf {s t : State} (hw : s.wf = true) (h : drainTurn s = .next t) :
    t.wf = true := by
  obtain ⟨x, r, d, hx, rfl⟩ := drainTurn_next h
  rw [stateWf_iff]
  rintro y ⟨rfl⟩
  exact engineStep_wf ((stateWf_iff s).mp hw x hx)

theorem step_wf {s t : State} (hw : s.wf = true) (h : step s = .next t) : t.wf = true := by
  obtain ⟨-, rfl⟩ | ⟨c, i, rest, -, -, he⟩ | ⟨c, e, rest, -, -, rfl⟩ | ⟨i, rest, -, rfl⟩ |
    ⟨rest, -, hd⟩ := step_cases h
  · exact hw
  · exact exec_wf (s := s.took rest) hw he
  · exact hw
  · exact portCycle_wf (s := s.took rest) i hw
  · exact drainTurn_wf (s := s.took rest) hw hd

/-! ### Items 4 and 6: what an operation on an instance keeps -/

/-- From `x` with the past `h` to `y` with the past `h'`, item 4 of 10 R19 is kept, and beside it
item 6. -/
def KeepsPast (x : Block) (h : History) (y : Block) (h' : History) : Prop :=
  x.captureAgrees h = true → y.captureAgrees h' = true ∧
    (x.framesVerified h = true → y.framesVerified h' = true)

theorem KeepsPast.trans {x y z : Block} {h h' h'' : History} (hxy : KeepsPast x h y h')
    (hyz : KeepsPast y h' z h'') : KeepsPast x h z h'' := by
  intro ha
  obtain ⟨hya, hyv⟩ := hxy ha
  obtain ⟨hza, hzv⟩ := hyz hya
  exact ⟨hza, hzv ∘ hyv⟩

/-- Neither item speaks of `inq` or `out_ovf`, and item 6 speaks of each frame on its own. -/
theorem keepsPast_of_sync_eq {x y : Block} (hc : y.cfg = x.cfg) (hs : y.sync = x.sync)
    (hq : y.outq ⊆ x.outq) (h : History) : KeepsPast x h y h := by
  intro ha
  refine ⟨by simpa only [Block.captureAgrees, hc, hs] using ha, fun hv => ?_⟩
  rw [framesVerified_iff] at hv ⊢
  rw [hc]
  exact fun f hf => hv f (hq hf)

theorem keepsPast_refl (x : Block) (h : History) : KeepsPast x h x h := fun ha => ⟨ha, id⟩

/-- A new instance has nothing in its past that could disagree. -/
theorem constructBlock_agrees (c : CfgRecord) (h : History) :
    (constructBlock c).captureAgrees h = true ∧ (constructBlock c).framesVerified h = true :=
  ⟨captureAgrees_seeking rfl h, by simp [framesVerified_iff]⟩

theorem resetBlock_keepsPast (x : Block) (h h' : History) : KeepsPast x h (resetBlock x) h' := by
  rw [resetBlock_eq_constructBlock]
  exact fun _ => (constructBlock_agrees x.cfg h').imp_right fun hv _ => hv

theorem closeBlock_keepsPast (x : Block) (h : History) : KeepsPast x h (closeBlock x).1 h :=
  fun _ => ⟨captureAgrees_seeking rfl h, id⟩

theorem feedBlock_keepsPast {p : Params} {x : Block} (hw : x.wf p = true) (bytes : List Byte)
    (h : History) : KeepsPast x h (feedBlock p bytes x).1 (History.bytes p bytes x h) :=
  fun ha => bytes_agree bytes hw ha

theorem engineStep_keepsPast {p : Params} {x : Block} (hw : x.wf p = true) (h : History) :
    KeepsPast x h (engineStep p x).1 (History.bytes p (x.inq.take 1) x h) := by
  cases hq : x.inq with
  | nil => rw [engineStep_nil hq]; exact keepsPast_refl x h
  | cons b rest =>
    rw [engineStep_cons hq]
    exact (feedBlock_keepsPast hw [b] h).trans (keepsPast_of_sync_eq rfl rfl (List.Subset.refl _) _)

theorem drainBlock_keepsPast {p : Params} {x : Block} (hw : x.wf p = true) (h : History) :
    KeepsPast x h (drainBlock p x).1 (History.bytes p x.inq x h) := by
  rw [show drainBlock p x = _ from drainBlock_withInq p x.inq x]
  exact (feedBlock_keepsPast hw x.inq h).trans (keepsPast_of_sync_eq rfl rfl (List.Subset.refl _) _)

theorem enqueueChunk_keepsPast (p : Params) (x : Block) (chunk : List Byte) (h : History) :
    KeepsPast x h (enqueueChunk p x chunk).1 h := by
  obtain ⟨-, e⟩ | ⟨-, e⟩ := enqueueChunk_cases p x chunk <;> rw [e]
  · exact keepsPast_of_sync_eq rfl rfl (List.Subset.refl _) h
  · exact keepsPast_refl x h

theorem dequeueByte_keepsPast (x : Block) (h : History) : KeepsPast x h (dequeueByte x).1 h := by
  cases hq : x.inq with
  | nil => rw [dequeueByte_nil hq]; exact keepsPast_refl x h
  | cons b rest =>
    rw [dequeueByte_cons hq]; exact keepsPast_of_sync_eq rfl rfl (List.Subset.refl _) h

theorem dequeueFrame_keepsPast (x : Block) (h : History) : KeepsPast x h (dequeueFrame x).1 h := by
  cases hq : x.outq with
  | nil => rw [dequeueFrame_nil hq]; exact keepsPast_refl x h
  | cons f rest =>
    have hsub : rest ⊆ x.outq := by rw [hq]; exact List.subset_cons_self f rest
    rw [dequeueFrame_cons hq]
    exact keepsPast_of_sync_eq (x := x) (y := { x with outq := rest }) rfl rfl hsub h

/-- Every operation that is not internal keeps both items. -/
theorem instanceEffect_keepsPast {p : Params} {x : Block} {i : Instr} (hw : x.wf p = true)
    (hi : ∀ cfg, i ≠ .config cfg) (hext : Instr.internal i = false) (h : History) :
    KeepsPast x h (instanceEffect p x i) (History.operation p x i h) := by
  cases i with
  | reset => exact resetBlock_keepsPast x h _
  | config cfg => exact absurd rfl (hi cfg)
  | crc16 _ => exact keepsPast_refl x h
  | processByte b => exact feedBlock_keepsPast hw [b] h
  | inEnq chunk => exact enqueueChunk_keepsPast p x chunk h
  | inDeq => exact dequeueByte_keepsPast x h
  | step => exact engineStep_keepsPast hw h
  | drain => exact drainBlock_keepsPast hw h
  | outEnq f => cases hext
  | outDeq => exact dequeueFrame_keepsPast x h
  | close => exact closeBlock_keepsPast x h

/-- An internal operation, issued from outside (log 13), still keeps item 4: it leaves the
synchronizer alone. -/
theorem instanceEffect_captureAgrees_of_internal {p : Params} {x : Block} {i : Instr} {h : History}
    (hint : Instr.internal i = true) (ha : x.captureAgrees h = true) :
    (instanceEffect p x i).captureAgrees (History.operation p x i h) = true := by
  cases i with
  | crc16 _ => exact ha
  | inDeq => exact (dequeueByte_keepsPast x h ha).1
  | outEnq f =>
    change (enqueueFrame p x f).1.captureAgrees h = true
    obtain ⟨-, e⟩ | ⟨-, e⟩ := enqueueFrame_cases p x f <;> rw [e] <;> exact ha
  | reset | config _ | processByte _ | inEnq _ | step | drain | outDeq | close => cases hint

theorem cycleEngine_keepsPast {p : Params} {x : Block} {i : PortsIn} (hw : x.wf p = true)
    (hr : i.rst = false) (h : History) :
    KeepsPast x h (cycleEngine p (cyclePlan p x i) x).1 (History.cycle p x i h) := by
  rw [cycleEngine_cyclePlan]
  unfold History.cycle
  cases hc : i.close with
  | true => simpa [hr] using closeBlock_keepsPast x h
  | false =>
    cases hrun : i.run with
    | true => simpa [hr] using engineStep_keepsPast hw h
    | false => simpa [hr] using keepsPast_refl x h

theorem cycleOutDeq_keepsPast (plan : CyclePlan) (x : Block) (h : History) :
    KeepsPast x h (cycleOutDeq plan x) h := by
  unfold cycleOutDeq
  split
  · exact dequeueFrame_keepsPast x h
  · exact keepsPast_refl x h

theorem cycleInEnq_keepsPast (p : Params) (plan : CyclePlan) (i : PortsIn) (x : Block)
    (h : History) : KeepsPast x h (cycleInEnq p plan i x) h := by
  unfold cycleInEnq
  split
  · exact enqueueChunk_keepsPast p x _ h
  · exact keepsPast_refl x h

theorem cycleBlock_keepsPast {p : Params} {x : Block} (hw : x.wf p = true) (i : PortsIn)
    (h : History) : KeepsPast x h (cycleBlock p x i).1 (History.cycle p x i h) := by
  cases hr : i.rst with
  | true => rw [cycleBlock_rst hr]; exact resetBlock_keepsPast x h _
  | false =>
    rw [cycleBlock_noRst hr]
    exact ((cycleEngine_keepsPast hw hr h).trans (cycleOutDeq_keepsPast _ _ _)).trans
      (cycleInEnq_keepsPast p _ i _ _)

/-! ### Items 4 and 6: steps of the machine -/

theorem history_after_nil {s : State} (hp : s.pending = []) (h : History) : h.after s = h := by
  simp only [History.after, hp]

theorem history_after_op {s : State} {x : Block} {c : Command} {i : Instr} {rest : List Input}
    (hx : s.inst = .built x) (hp : s.pending = .op c :: rest) (hd : decode c = .ok i)
    (h : History) : h.after s = History.operation s.params x i h := by
  simp only [History.after, hp, hx, hd]

theorem history_after_illegal {s : State} {x : Block} {c : Command} {e : DecodeReject}
    {rest : List Input} (hx : s.inst = .built x) (hp : s.pending = .op c :: rest)
    (hd : decode c = .error e) (h : History) : h.after s = h := by
  simp only [History.after, hp, hx, hd]

theorem history_after_cycle {s : State} {x : Block} {i : PortsIn} {rest : List Input}
    (hx : s.inst = .built x) (hp : s.pending = .cycle i :: rest) (h : History) :
    h.after s = History.cycle s.params x i h := by
  simp only [History.after, hp, hx]

theorem history_after_drainTurn {s : State} {x : Block} {rest : List Input}
    (hx : s.inst = .built x) (hp : s.pending = .drainTurn :: rest) (h : History) :
    h.after s = History.bytes s.params (x.inq.take 1) x h := by
  simp only [History.after, hp, hx]

/-- A new construction agrees with every past. -/
theorem construct_agrees (cfg : Option CfgRecord) (s : State) (h : History) :
    (construct cfg s).captureAgrees h = true ∧ (construct cfg s).framesVerified h = true := by
  rw [stateCaptureAgrees_iff, stateFramesVerified_iff]
  obtain ⟨i, r, hc, ⟨e, rfl⟩ | ⟨c, -, rfl⟩⟩ := construct_cases cfg s
  · simp [hc]
  · rw [hc]
    refine ⟨?_, ?_⟩ <;> rintro x ⟨rfl⟩
    · exact (constructBlock_agrees c h).1
    · exact (constructBlock_agrees c h).2

/-- Without an instance a step ends without one too, or with a new one: it agrees with every past.
-/
theorem step_agrees_of_noInstance {s t : State} (hinst : ∀ x, s.inst ≠ .built x)
    (h : step s = .next t) (g : History) :
    t.captureAgrees g = true ∧ t.framesVerified g = true := by
  have hkept : ∀ u : State, u.inst = s.inst →
      u.captureAgrees g = true ∧ u.framesVerified g = true := by
    intro u hu
    rw [stateCaptureAgrees_iff, stateFramesVerified_iff, hu]
    exact ⟨fun x hx => absurd hx (hinst x), fun x hx => absurd hx (hinst x)⟩
  obtain ⟨-, rfl⟩ | ⟨c, i, rest, -, -, he⟩ | ⟨c, e, rest, -, -, rfl⟩ | ⟨i, rest, -, rfl⟩ |
    ⟨rest, -, hd⟩ := step_cases h
  · exact hkept t rfl
  · by_cases hi : ∀ cfg, i ≠ .config cfg
    · rw [exec_noInstance (s := s.took rest) hinst hi] at he
      cases he
    · obtain ⟨cfg, rfl⟩ := not_forall_not.mp hi
      rw [exec_config] at he
      cases he
      exact construct_agrees cfg _ g
  · exact hkept _ rfl
  · obtain ⟨o, ho⟩ := portCycle_noInstance (s := s.took rest) hinst i
    rw [ho]
    change (cycleUnbuilt i (s.took rest)).captureAgrees g = true ∧
      (cycleUnbuilt i (s.took rest)).framesVerified g = true
    unfold cycleUnbuilt
    split
    · exact construct_agrees _ _ g
    · exact hkept _ rfl
  · rw [drainTurn_noInstance (s := s.took rest) hinst] at hd
    cases hd

/-- What the instance of a machine keeps, the machine keeps. -/
theorem state_agrees_of_keepsPast {s t : State} {x y : Block} {h h' : History}
    (hx : s.inst = .built x) (hy : t.inst = .built y) (hk : KeepsPast x h y h')
    (ha : s.captureAgrees h = true) :
    t.captureAgrees h' = true ∧ (s.framesVerified h = true → t.framesVerified h' = true) := by
  obtain ⟨hca, hfv⟩ := hk ((stateCaptureAgrees_iff s h).mp ha x hx)
  rw [stateCaptureAgrees_iff, stateFramesVerified_iff, stateFramesVerified_iff, hy]
  refine ⟨?_, fun hv => ?_⟩ <;> rintro z ⟨rfl⟩
  · exact hca
  · exact hfv (hv x hx)

/-- The command of an operation on an instance keeps item 4, and item 6 where it is not internal. -/
theorem exec_agrees {s t : State} {x : Block} {i : Instr} {h : History} (hx : s.inst = .built x)
    (hw : s.wf = true) (he : exec i s = .next t) (ha : s.captureAgrees h = true) :
    t.captureAgrees (History.operation s.params x i h) = true ∧
      (Instr.internal i = false → s.framesVerified h = true →
        t.framesVerified (History.operation s.params x i h) = true) := by
  by_cases hi : ∀ cfg, i ≠ .config cfg
  · obtain ⟨-, r, rfl⟩ := exec_next hx hi he
    cases hint : Instr.internal i with
    | false =>
      have hk := instanceEffect_keepsPast ((stateWf_iff s).mp hw x hx) hi hint h
      exact (state_agrees_of_keepsPast hx rfl hk ha).imp_right fun hv _ => hv
    | true =>
      refine ⟨?_, fun hext => absurd hext (by simp)⟩
      rw [stateCaptureAgrees_iff]
      rintro y ⟨rfl⟩
      exact instanceEffect_captureAgrees_of_internal hint ((stateCaptureAgrees_iff s h).mp ha x hx)
  · obtain ⟨cfg, rfl⟩ := not_forall_not.mp hi
    rw [exec_config] at he
    cases he
    exact (construct_agrees cfg s _).imp_right fun hv _ _ => hv

/-- A step from an instance keeps item 4, and item 6 where no internal operation is issued. -/
theorem step_agrees_of_instance {s t : State} {x : Block} {h : History} (hx : s.inst = .built x)
    (hw : s.wf = true) (hstep : step s = .next t) (ha : s.captureAgrees h = true) :
    t.captureAgrees (h.after s) = true ∧
      ((∀ i rest, s.pending = i :: rest → i.external = true) → s.framesVerified h = true →
        t.framesVerified (h.after s) = true) := by
  have hwx := (stateWf_iff s).mp hw x hx
  obtain ⟨hp, rfl⟩ | ⟨c, i, rest, hp, hd, he⟩ | ⟨c, e, rest, hp, hd, rfl⟩ | ⟨i, rest, hp, rfl⟩ |
    ⟨rest, hp, hd⟩ := step_cases hstep
  · rw [history_after_nil hp]
    exact ⟨ha, fun _ => id⟩
  · rw [history_after_op hx hp hd]
    obtain ⟨hca, hfv⟩ := exec_agrees (s := s.took rest) hx hw he ha
    refine ⟨hca, fun hext => hfv ?_⟩
    simpa [Input.external, hd] using hext _ _ hp
  · rw [history_after_illegal hx hp hd]
    exact ⟨ha, fun _ => id⟩
  · rw [history_after_cycle hx hp, portCycle_built (s := s.took rest) hx]
    exact (state_agrees_of_keepsPast hx rfl (cycleBlock_keepsPast hwx i h) ha).imp_right
      fun hv _ => hv
  · rw [history_after_drainTurn hx hp]
    obtain ⟨y, r, d, hy, rfl⟩ := drainTurn_next hd
    obtain rfl : x = y := Construction.built.inj (hx.symm.trans hy)
    exact (state_agrees_of_keepsPast hx rfl (engineStep_keepsPast hwx h) ha).imp_right
      fun hv _ => hv

/-- Settles O55: the invariants without a past, then those with one, on an instance and on none. -/
theorem stepKeepsInvariants : Obligations.StepKeepsInvariants := by
  refine fun s t hw hstep => ⟨step_wf hw hstep, fun h ha => ?_⟩
  by_cases hinst : ∃ x, s.inst = .built x
  · obtain ⟨x, hx⟩ := hinst
    exact step_agrees_of_instance hx hw hstep ha
  · exact (step_agrees_of_noInstance (not_exists.mp hinst) hstep _).imp_right fun hv _ _ => hv

/-- Settles O54: the reset state is the instance a `CONFIG` of a legal record makes. -/
theorem resetMeetsInvariants : Obligations.ResetMeetsInvariants := by
  have hinst : State.reset.inst = .built (constructBlock resetCfg) := rfl
  rw [Obligations.ResetMeetsInvariants, stateWf_iff, stateCaptureAgrees_iff,
    stateFramesVerified_iff, hinst]
  refine ⟨?_, ?_, ?_⟩ <;> rintro x ⟨rfl⟩
  · exact constructBlock_wf (by decide)
  · exact (constructBlock_agrees resetCfg _).1
  · exact (constructBlock_agrees resetCfg _).2

end Sys2Proof.Machine
end

section
/-! What the operations write of an instance (20 R48, 60 R136): every operation but `RESET` and
`CONFIG` writes the synchronizer, the queues, and 1 into `out_ovf`, so a property that these writes
keep is kept by all of them. -/

namespace Sys2Proof.Machine

open Sys2Proof

/-! ### The four writes -/

/-- A property of an instance that no write of a synchronizer, of a queue, or of 1 into `out_ovf`
changes. -/
structure KeptByWrites (P : Block → Prop) : Prop where
  sync : ∀ x y, P x → P { x with sync := y }
  inq : ∀ x q, P x → P { x with inq := q }
  outq : ∀ x q, P x → P { x with outq := q }
  ovf : ∀ x, P x → P { x with outOvf := true }

section

variable {P : Block → Prop} (hP : KeptByWrites P)

include hP

theorem processByte_keeps (p : Params) (b : Byte) {x : Block} (hx : P x) :
    P (processByte p x b).1 := by
  obtain ⟨y, o, -, ⟨-, h⟩ | ⟨-, h⟩ | ⟨f, -, -, h⟩ | ⟨f, -, -, h⟩⟩ := processByte_cases p x b <;>
    rw [h]
  · exact hP.sync x y hx
  · exact hP.sync x y hx
  · exact hP.outq _ _ (hP.sync x y hx)
  · exact hP.ovf _ (hP.sync x y hx)

theorem feedBlock_keeps (p : Params) (bytes : List Byte) {x : Block} (hx : P x) :
    P (feedBlock p bytes x).1 := by
  induction bytes generalizing x with
  | nil => exact hx
  | cons b rest ih => exact ih (processByte_keeps hP p b hx)

theorem enqueueChunk_keeps (p : Params) (chunk : List Byte) {x : Block} (hx : P x) :
    P (enqueueChunk p x chunk).1 := by
  obtain ⟨-, h⟩ | ⟨-, h⟩ := enqueueChunk_cases p x chunk <;> rw [h]
  · exact hP.inq x _ hx
  · exact hx

theorem dequeueByte_keeps {x : Block} (hx : P x) : P (dequeueByte x).1 := by
  cases hq : x.inq with
  | nil => rw [dequeueByte_nil hq]; exact hx
  | cons b rest => rw [dequeueByte_cons hq]; exact hP.inq x rest hx

theorem enqueueFrame_keeps (p : Params) (f : Frame) {x : Block} (hx : P x) :
    P (enqueueFrame p x f).1 := by
  obtain ⟨-, h⟩ | ⟨-, h⟩ := enqueueFrame_cases p x f <;> rw [h]
  · exact hP.outq x _ hx
  · exact hx

theorem dequeueFrame_keeps {x : Block} (hx : P x) : P (dequeueFrame x).1 := by
  cases hq : x.outq with
  | nil => rw [dequeueFrame_nil hq]; exact hx
  | cons f rest => rw [dequeueFrame_cons hq]; exact hP.outq x rest hx

theorem engineStep_keeps (p : Params) {x : Block} (hx : P x) : P (engineStep p x).1 := by
  cases hq : x.inq with
  | nil => rw [engineStep_nil hq]; exact hx
  | cons b rest => rw [engineStep_cons hq]; exact hP.inq _ rest (processByte_keeps hP p b hx)

theorem drainBlock_keeps (p : Params) {x : Block} (hx : P x) : P (drainBlock p x).1 := by
  rw [show drainBlock p x = _ from drainBlock_withInq p x.inq x]
  exact hP.inq _ [] (feedBlock_keeps hP p x.inq hx)

theorem closeBlock_keeps {x : Block} (hx : P x) : P (closeBlock x).1 := hP.sync x _ hx

theorem instanceEffect_keeps (p : Params) {i : Instr} (hi : i ≠ .reset) {x : Block} (hx : P x) :
    P (instanceEffect p x i) := by
  cases i with
  | reset => exact absurd rfl hi
  | config _ => exact hx
  | crc16 _ => exact hx
  | processByte b => exact processByte_keeps hP p b hx
  | inEnq chunk => exact enqueueChunk_keeps hP p chunk hx
  | inDeq => exact dequeueByte_keeps hP hx
  | step => exact engineStep_keeps hP p hx
  | drain => exact drainBlock_keeps hP p hx
  | outEnq f => exact enqueueFrame_keeps hP p f hx
  | outDeq => exact dequeueFrame_keeps hP hx
  | close => exact closeBlock_keeps hP hx

end

/-! ### The sticky bit (60 R136) -/

theorem outOvf_keptByWrites : KeptByWrites (fun x => x.outOvf = true) where
  sync _ _ h := h
  inq _ _ h := h
  outq _ _ h := h
  ovf _ _ := rfl

/-- Settles O43: the only write of `out_ovf` besides the two excluded operations writes 1. -/
theorem overflowBitIsSticky : Obligations.OverflowBitIsSticky := by
  intro i s t x hx hovf hreset hconfig h
  obtain ⟨-, r, rfl⟩ := exec_next hx hconfig h
  exact ⟨_, rfl, instanceEffect_keeps outOvf_keptByWrites s.params hreset hovf⟩

/-! ### The configuration (20 R48) -/

theorem cfg_keptByWrites (c : CfgRecord) : KeptByWrites (fun x => x.cfg = c) where
  sync _ _ h := h
  inq _ _ h := h
  outq _ _ h := h
  ovf _ h := h

/-- `RESET` keeps the configuration too. -/
theorem instanceEffect_cfg (p : Params) (x : Block) (i : Instr) :
    (instanceEffect p x i).cfg = x.cfg := by
  by_cases hi : i = .reset
  · subst hi
    exact resetBlock_cfg x
  · exact instanceEffect_keeps (cfg_keptByWrites x.cfg) p hi rfl

theorem engineStep_cfg (p : Params) (x : Block) : (engineStep p x).1.cfg = x.cfg :=
  engineStep_keeps (cfg_keptByWrites x.cfg) p rfl

theorem drainBlock_cfg (p : Params) (x : Block) : (drainBlock p x).1.cfg = x.cfg :=
  drainBlock_keeps (cfg_keptByWrites x.cfg) p rfl

theorem cycleBlock_cfg (p : Params) (x : Block) (i : PortsIn) :
    (cycleBlock p x i).1.cfg = x.cfg :=
  have hP := cfg_keptByWrites x.cfg
  cycleBlock_keeps (P := fun y => y.cfg = x.cfg) (fun _ h => h) (fun _ => closeBlock_keeps hP)
    (fun _ => engineStep_keeps hP p) (fun _ => dequeueFrame_keeps hP)
    (fun _ chunk => enqueueChunk_keeps hP p chunk) rfl i

theorem portCycle_params_straps (i : PortsIn) (s : State) :
    (portCycle i s).params = s.params ∧ (portCycle i s).straps = s.straps := by
  by_cases hinst : ∃ x, s.inst = .built x
  · obtain ⟨x, hx⟩ := hinst
    rw [portCycle_built hx]
    exact ⟨rfl, rfl⟩
  · obtain ⟨o, ho⟩ := portCycle_noInstance (not_exists.mp hinst) i
    rw [ho]
    cases hr : i.rst with
    | true =>
      obtain ⟨inst, r, hc, -⟩ := construct_cases (some s.straps) s
      rw [cycleUnbuilt_rst hr, hc]
      exact ⟨rfl, rfl⟩
    | false =>
      rw [cycleUnbuilt_idle hr]
      exact ⟨rfl, rfl⟩

theorem step_params_straps {s t : State} (h : step s = .next t) :
    t.params = s.params ∧ t.straps = s.straps := by
  obtain ⟨-, rfl⟩ | ⟨c, i, rest, -, -, he⟩ | ⟨c, e, rest, -, -, rfl⟩ | ⟨i, rest, -, rfl⟩ |
    ⟨rest, -, hd⟩ := step_cases h
  · exact ⟨rfl, rfl⟩
  · obtain ⟨inst, r, rfl⟩ := exec_next_frame he
    exact ⟨rfl, rfl⟩
  · exact ⟨rfl, rfl⟩
  · exact portCycle_params_straps i (s.took rest)
  · obtain ⟨x, r, d, -, rfl⟩ := drainTurn_next hd
    exact ⟨rfl, rfl⟩

theorem step_cfg {s t : State} {x : Block} (hx : s.inst = .built x)
    (hconfig : ∀ c cfg rest, s.pending = .op c :: rest → decode c ≠ .ok (.config cfg))
    (h : step s = .next t) : ∃ y, t.inst = .built y ∧ y.cfg = x.cfg := by
  obtain ⟨-, rfl⟩ | ⟨c, i, rest, hp, hd, he⟩ | ⟨c, e, rest, -, -, rfl⟩ | ⟨i, rest, -, rfl⟩ |
    ⟨rest, -, hd⟩ := step_cases h
  · exact ⟨x, hx, rfl⟩
  · have hi : ∀ cfg, i ≠ .config cfg := by
      rintro cfg rfl
      exact hconfig c cfg rest hp hd
    obtain ⟨-, r, rfl⟩ := exec_next (s := s.took rest) hx hi he
    exact ⟨_, rfl, instanceEffect_cfg _ x i⟩
  · exact ⟨x, hx, rfl⟩
  · rw [portCycle_built (s := s.took rest) hx]
    exact ⟨_, rfl, cycleBlock_cfg _ x i⟩
  · obtain ⟨y, r, d, hy, rfl⟩ := drainTurn_next hd
    obtain rfl : x = y := Construction.built.inj (hx.symm.trans hy)
    exact ⟨_, rfl, engineStep_cfg _ x⟩

/-- Settles O7: no step writes the parameters and the constants, and no input but `CONFIG` the
configuration. -/
theorem configurationIsImmutable : Obligations.ConfigurationIsImmutable :=
  fun _ _ h =>
    ⟨(step_params_straps h).1, (step_params_straps h).2, fun _ hx hconfig => step_cfg hx hconfig h⟩

end Sys2Proof.Machine
end

section
/-! The lifecycle of an instance (43 R120 to R125) and what holds of every operation: construction,
refusal without an instance, completion with one, and the tables of flags and codes. -/

namespace Sys2Proof.Machine

open Sys2Proof

/-! ### Construction and reset -/

/-- Settles O1: both operations leave `constructBlock` of the configuration. -/
theorem resetStateTable : Obligations.ResetStateTable :=
  ⟨fun _ _ h => ⟨_, exec_config_of_wellFormed h, rfl⟩, fun _ _ hx => ⟨_, exec_reset hx, rfl⟩⟩

/-- Settles O2: the reset state is written with these values. -/
theorem resetHoldsNamedConfiguration : Obligations.ResetHoldsNamedConfiguration :=
  ⟨rfl, rfl, rfl, rfl, rfl⟩

theorem checkConfig_zeroSync (p : Params) {c : CfgRecord} (hn : c.n = 0) :
    checkConfig p (some c) = .error .errZeroSync := by
  simp [checkConfig, hn]

theorem checkConfig_zeroPayload (p : Params) {c : CfgRecord} (hn : c.n ≠ 0)
    (hl : c.payloadLen = 0) : checkConfig p (some c) = .error .errZeroPayload := by
  simp [checkConfig, hn, hl]

theorem checkConfig_resource {p : Params} {c : CfgRecord} (hn : c.n ≠ 0) (hl : c.payloadLen ≠ 0)
    (hmax : p.nMax.admits c.n = false ∨ p.lMax.admits c.payloadLen = false) :
    checkConfig p (some c) = .error .errResource := by
  rcases hmax with h | h <;> simp [checkConfig, hn, hl, h]

/-- Tag `0x1` is `CONFIG` of the record beside the word (30 R59). -/
theorem decode_config (bytes : List Byte) (cfg : Option CfgRecord) :
    decode ⟨commandWord 0x1 0, bytes, cfg⟩ = .ok (.config cfg) := by
  simp [decode, decodePlain]

/-- Settles O3: the four checks in their order, then the record is legal. -/
theorem configChecksThenConstructs : Obligations.ConfigChecksThenConstructs := by
  refine ⟨decode_config [], fun s => ⟨rfl, fun c => ?_⟩⟩
  rw [exec_config]
  split
  next hn => exact congrArg _ (construct_of_error (checkConfig_zeroSync _ hn))
  next hn =>
    split
    next hl => exact congrArg _ (construct_of_error (checkConfig_zeroPayload _ hn hl))
    next hl =>
      split
      next hmax => exact congrArg _ (construct_of_error (checkConfig_resource hn hl hmax))
      next hmax =>
        simp only [not_or, Bool.not_eq_false] at hmax
        have hwf : c.wellFormed s.params = true :=
          (cfgWf_iff _ c).mpr ⟨Nat.pos_of_ne_zero hn, hmax.1, Nat.pos_of_ne_zero hl, hmax.2⟩
        exact exec_config_of_wellFormed hwf

/-! ### Every operation -/

/-- Settles O4: without an instance every operation but `CONFIG` is refused. -/
theorem noInstanceRefusesOperations : Obligations.NoInstanceRefusesOperations :=
  fun _ _ => exec_noInstance

/-- Settles O52: `CONFIG` answers in every state, and every other operation its effect. -/
theorem everyOperationCompletes : Obligations.EveryOperationCompletes := by
  refine ⟨fun i s x hx hl => ?_, fun cfg s => ⟨_, exec_config cfg s⟩⟩
  by_cases hi : ∀ cfg, i ≠ .config cfg
  · obtain ⟨r, h⟩ := exec_effect hx hi hl
    exact ⟨_, h⟩
  · obtain ⟨cfg, rfl⟩ := not_forall_not.mp hi
    exact ⟨_, exec_config cfg s⟩

/-- Settles O53: every operation overwrites the result and looks only at other fields. -/
theorem resultIsNotRead : Obligations.ResultIsNotRead := by
  intro i s r
  cases i <;> rfl

/-- Settles O60: the answer is put back at the place it came from. -/
theorem instancesAreIndependent : Obligations.InstancesAreIndependent := by
  intro f k i s t hk h
  have hlt : k < f.length := (List.getElem?_eq_some_iff.mp hk).1
  refine ⟨f.set k t, by simp only [execOn, hk, h, Fleet.put], List.length_set,
    List.getElem?_set_self hlt, fun j hj => List.getElem?_set_ne hj.symm⟩

/-! ### `OUT_ENQ` (42 R102) -/

/-- Tag `0x8` is `OUT_ENQ` of the bytes beside the word (30 R59). -/
theorem decode_outEnq (bytes : List Byte) (cfg : Option CfgRecord) :
    decode ⟨commandWord 0x8 0, bytes, cfg⟩ = .ok (.outEnq bytes) := by
  simp [decode, decodePlain]

/-- Settles O33: a frame of `L` bytes has room or it has not; any other operand is refused. -/
theorem outEnqAppendsFrame : Obligations.OutEnqAppendsFrame := by
  refine ⟨fun bytes => decode_outEnq bytes none,
    fun s x f hx => ⟨fun hl => ?_, exec_outEnq_wrongLength hx⟩⟩
  split
  next hroom => exact exec_outEnq hx hl (enqueueFrame_room f hroom)
  next hfull =>
    rw [exec_outEnq hx hl (enqueueFrame_full f (Bool.eq_false_iff.mpr hfull)),
      answer_sameInstance hx]

/-! ### Flags and codes -/

theorem reached_iff (c : Capacity) (n : Nat) : Capacity.reached c n = true ↔ c = .fin n := by
  cases c with
  | fin k => simp [Capacity.reached, eq_comm]
  | inf => simp [Capacity.reached]

/-- Settles O44: an empty queue, and a capacity that is reached. -/
theorem statusFlagsFollowQueues : Obligations.StatusFlagsFollowQueues :=
  fun p x => ⟨List.isEmpty_iff_length_eq_zero, reached_iff p.inDepth x.inq.length,
    List.isEmpty_iff_length_eq_zero, reached_iff p.outDepth x.outq.length⟩

/-- Settles O48: each entry of the tables by evaluation. -/
theorem resultCodesAreTheTables : Obligations.ResultCodesAreTheTables :=
  ⟨rfl, rfl, rfl, rfl, rfl, rfl, rfl, rfl, rfl, fun _ => rfl, fun _ => rfl, fun _ => rfl⟩

end Sys2Proof.Machine
end

section
/-! The bus layout of a Frame value (30 R55). -/

namespace Sys2Proof.Machine

open Sys2Proof

theorem frameBus_lt (f : Frame) : frameBus f < 2 ^ (8 * f.length) := by
  induction f with
  | nil => simp [frameBus]
  | cons b rest ih =>
    have hb := b.isLt
    rw [frameBus, List.length_cons, Nat.mul_succ, Nat.pow_add]
    omega

/-- One place further into the frame is eight bits further up the bus. -/
theorem frameBus_cons_shift (b : Byte) (rest : Frame) (i : Nat) :
    frameBus (b :: rest) / 2 ^ (8 * (i + 1)) = frameBus rest / 2 ^ (8 * i) := by
  have hb := b.isLt
  have hhead : frameBus (b :: rest) / 2 ^ 8 = frameBus rest := by rw [frameBus]; omega
  rw [Nat.mul_succ, Nat.add_comm, Nat.pow_add, ← Nat.div_div_eq_div_mul, hhead]

theorem frameBus_byte {f : Frame} {i : Nat} {b : Byte} (h : f[i]? = some b) :
    frameBus f / 2 ^ (8 * i) % 256 = b.toNat := by
  induction f generalizing i with
  | nil => simp at h
  | cons a rest ih =>
    cases i with
    | zero =>
      obtain rfl : a = b := by simpa using h
      have ha := a.isLt
      rw [frameBus, Nat.mul_zero, Nat.pow_zero, Nat.div_one]
      omega
    | succ i =>
      rw [frameBus_cons_shift]
      exact ih (by simpa using h)

/-- Settles O50: the bound and the bytes, by induction on the frame. -/
theorem frameBusLayout : Obligations.FrameBusLayout :=
  fun f => ⟨frameBus_lt f, fun _ _ => frameBus_byte⟩

end Sys2Proof.Machine
end

section
/-! Two bytes through the CRC register (40 R73 to R76): a round is linear and loses nothing, so two
byte updates are sixteen rounds of the register with the two bytes xor-ed into it. -/

namespace Sys2Proof.Machine

open Sys2Proof

/-! ### A round is linear and invertible -/

/-- A round as a shift and a word that the tested bit alone decides. -/
theorem crcRound_eq_xor (r : Word16) :
    crcRound r = (r <<< 1) ^^^ (if r.getLsbD 15 then crcPoly else 0) := by
  unfold crcRound
  split
  · rfl
  · exact BitVec.xor_zero.symm

theorem crcRound_xor (a b : Word16) : crcRound (a ^^^ b) = crcRound a ^^^ crcRound b := by
  have hpoly : (if (a ^^^ b).getLsbD 15 then crcPoly else 0) =
      (if a.getLsbD 15 then crcPoly else 0) ^^^ (if b.getLsbD 15 then crcPoly else 0) := by
    rw [BitVec.getLsbD_xor]
    cases a.getLsbD 15 <;> cases b.getLsbD 15 <;> rfl
  rw [crcRound_eq_xor, crcRound_eq_xor a, crcRound_eq_xor b, hpoly, BitVec.shiftLeft_xor_distrib]
  ac_rfl

theorem crcRounds_xor (n : Nat) (a b : Word16) :
    crcRounds n (a ^^^ b) = crcRounds n a ^^^ crcRounds n b := by
  induction n generalizing a b with
  | zero => rfl
  | succ n ih => rw [crcRounds, crcRounds, crcRounds, crcRound_xor, ih]

/-- The polynomial is odd and a shifted register is even, so only the zero register goes to zero. -/
theorem eq_zero_of_crcRound_eq_zero {r : Word16} (h : crcRound r = 0) : r = 0 := by
  have hr := crcRound_toNat r
  rw [h] at hr
  apply BitVec.eq_of_toNat_eq
  split at hr
  next => simp at hr ⊢; omega
  next hle =>
    have hpoly : 2 * r.toNat - 0x10000 = 0x1021 := Nat.xor_eq_zero_iff.mp hr.symm
    omega

theorem crcRound_injective : Function.Injective crcRound := by
  intro a b h
  apply BitVec.xor_eq_zero_iff.mp
  apply eq_zero_of_crcRound_eq_zero
  rw [crcRound_xor, h, BitVec.xor_self]
  rfl

theorem crcRounds_surjective (n : Nat) : Function.Surjective (crcRounds n) := by
  have hone : Function.Surjective crcRound := Finite.injective_iff_surjective.mp crcRound_injective
  rw [show crcRounds n = crcRound^[n] from funext (crcRounds_eq_iterate n)]
  exact hone.iterate n

theorem crcRounds_zero (n : Nat) : crcRounds n 0#16 = 0#16 := by
  simpa using crcRounds_xor n 0#16 0#16

/-! ### Two byte updates -/

/-- A register that `n` doublings keep below the top bit is only shifted by `n` rounds. -/
theorem crcRounds_toNat_of_small {n : Nat} {r : Word16} (h : r.toNat * 2 ^ n < 0x10000) :
    (crcRounds n r).toNat = r.toNat * 2 ^ n := by
  induction n generalizing r with
  | zero => simp [crcRounds]
  | succ n ih =>
    have hle : r.toNat * 2 ≤ r.toNat * 2 ^ (n + 1) :=
      Nat.mul_le_mul_left _ (by rw [Nat.pow_succ]; have := Nat.two_pow_pos n; omega)
    have hround : (crcRound r).toNat = r.toNat * 2 := by
      rw [crcRound_toNat, if_pos (by omega), Nat.mul_comm]
    have hpow : r.toNat * 2 ^ (n + 1) = (crcRound r).toNat * 2 ^ n := by
      rw [hround, Nat.pow_succ, Nat.mul_assoc, Nat.mul_comm 2]
    rw [crcRounds, ih (by omega), hpow]

/-- Eight rounds bring a byte from the low half of the register to the high half (40 R71). -/
theorem crcRounds_eight_zext16 (b : Byte) : crcRounds 8 (zext16 b) = crcInput b := by
  have hb := b.isLt
  apply BitVec.eq_of_toNat_eq
  rw [crcRounds_toNat_of_small (by rw [zext16_toNat]; omega), zext16_toNat, crcInput_toNat,
    show 2 ^ 8 = 256 from rfl]

theorem receivedChecksum_eq_xor (a b : Byte) :
    receivedChecksum a b = crcInput a ^^^ zext16 b := by
  ext i hi
  by_cases h : i < 8
  · simp [receivedChecksum, crcInput, zext16, h]
  · simp [receivedChecksum, crcInput, zext16, h, BitVec.getLsbD_of_ge b i (by omega)]

theorem crcUpdate_crcUpdate (r : Word16) (a b : Byte) :
    crcUpdate (crcUpdate r a) b = crcRounds 8 (crcRounds 8 (r ^^^ receivedChecksum a b)) := by
  rw [crcUpdate, crcUpdate, ← crcRounds_eight_zext16 b, ← crcRounds_xor, BitVec.xor_assoc,
    ← receivedChecksum_eq_xor]

/-! ### The statements -/

theorem crc16_append (a c : List Byte) : crc16 (a ++ c) = c.foldl crcUpdate (crc16 a) := by
  rw [crc16_eq_foldl, crc16_eq_foldl, List.foldl_append]

/-- A checksum field after a payload: sixteen rounds of the difference of the two checksums. -/
theorem crc16_append_checksumField (p : List Byte) (v : Word16) :
    crc16 (p ++ checksumField v) = crcRounds 8 (crcRounds 8 (crc16 p ^^^ v)) := by
  rw [crc16_append]
  change crcUpdate (crcUpdate _ _) _ = _
  rw [crcUpdate_crcUpdate, receivedChecksum_highByte_lowByte]

/-- Settles O10: the fold of an append. -/
theorem crcIncremental : Obligations.CrcIncremental := crc16_append

/-- Settles O11: by evaluation. -/
theorem crcCheckValue : Obligations.CrcCheckValue := by
  unfold Obligations.CrcCheckValue
  decide +kernel

/-- Settles O12: the register cancels against its own two bytes, and rounds keep zero. -/
theorem crcResidueIsZero : Obligations.CrcResidueIsZero := by
  intro p
  rw [crc16_append_checksumField, BitVec.xor_self, crcRounds_zero, crcRounds_zero]
  rfl

/-- Settles O13: two bytes reach every value, since the sixteen rounds do. -/
theorem crcReachesEveryValue : Obligations.CrcReachesEveryValue := by
  intro v
  obtain ⟨u, rfl⟩ := crcRounds_surjective 8 v
  obtain ⟨w, rfl⟩ := crcRounds_surjective 8 u
  refine ⟨checksumField (crc16 [] ^^^ w), ?_⟩
  rw [← List.nil_append (checksumField _), crc16_append_checksumField, ← BitVec.xor_assoc,
    BitVec.xor_self, BitVec.zero_xor]

end Sys2Proof.Machine
end

section
/-! `PROCESS_BYTE` on any instance: what its event says of the output side (41 R80), and that only a
verified payload is delivered (10 R19 item 6). -/

namespace Sys2Proof.Machine

open Sys2Proof

/-- A decision leaves `Seeking(0)` and the buffer as it was (41 R86, R89). -/
theorem syncStep_decided_sync {c : CfgRecord} {y z : Synchronizer} {b : Byte} {o : CoreOutcome}
    (h : syncStep c y b = (z, o)) (ho : o ≠ .undecided) : z = ⟨.seeking 0, y.payloadBuffer⟩ := by
  obtain ⟨fill, hi, -, -, hz, -⟩ := syncStep_decided h ho
  exact hz

/-- Settles O21: the word, and the four ways `PROCESS_BYTE` can end. -/
theorem processByteTotalWithFrame : Obligations.ProcessByteTotalWithFrame := by
  refine ⟨fun b => decode_processByte_number b [] none, fun s x b hx => ?_⟩
  obtain ⟨y, o, hs, ⟨-, h⟩ | ⟨rfl, h⟩ | ⟨f, rfl, -, h⟩ | ⟨f, rfl, -, h⟩⟩ :=
    processByte_cases s.params x b
  · exact ⟨_, _, _, exec_processByte hx h, by simp⟩
  · exact ⟨_, _, _, exec_processByte hx h, by simp [syncStep_decided_sync hs]⟩
  · exact ⟨_, _, _, exec_processByte hx h, by simp [syncStep_decided_sync hs]⟩
  · exact ⟨_, _, _, exec_processByte hx h, by simp [syncStep_decided_sync hs]⟩

/-- On a good synchronizer a payload that matches is the whole buffer, in the checksum stage, and
its checksum is the one received. -/
theorem syncStep_matched {c : CfgRecord} {y z : Synchronizer} {b : Byte} {f : Frame}
    (hw : y.wf c = true) (h : syncStep c y b = (z, .matched f)) :
    f = y.payloadBuffer ∧ ∃ hi, y.state = .capturing c.payloadLen 1 hi ∧
      receivedChecksum hi b = crc16 y.payloadBuffer := by
  obtain ⟨fill, hi, hst, hge, -, ho⟩ := syncStep_decided h (by simp)
  obtain ⟨hlen, hle, -, -⟩ := (syncWf_capturing hst).mp hw
  obtain rfl : fill = c.payloadLen := by omega
  rw [← hlen, List.take_length] at ho
  split at ho
  next hcrc =>
    cases ho
    exact ⟨rfl, hi, hst, hcrc⟩
  next => cases ho

/-- Settles O22: `outq` changes only where a payload matched and there was room. -/
theorem onlyVerifiedFramesAreEmitted : Obligations.OnlyVerifiedFramesAreEmitted := by
  intro s t x y b hx hw he hy hne
  have hsync := ((blockWf_iff s.params x).mp hw).2.1
  rw [exec_processByte hx rfl] at he
  cases he
  obtain rfl : (processByte s.params x b).1 = y := Construction.built.inj hy
  obtain ⟨z, o, hs, ⟨-, h⟩ | ⟨-, h⟩ | ⟨f, rfl, -, h⟩ | ⟨f, -, -, h⟩⟩ :=
    processByte_cases s.params x b
  · exact absurd (by rw [h]) hne
  · exact absurd (by rw [h]) hne
  · obtain ⟨rfl, hi, hst, hcrc⟩ := syncStep_matched hsync hs
    exact ⟨hi, hst, hcrc, syncWf_length hsync, by rw [h]⟩
  · exact absurd (by rw [h]) hne

end Sys2Proof.Machine
end

section
/-! Runs of bytes as `feedBlock` sees them: the events in order, whole wire frames (41 R93), a
pattern missed (70 R163), and how long a capture lasts (41 R90, R98). -/

namespace Sys2Proof.Machine

open Sys2Proof

/-! ### `feedBlock` one byte at a time -/

theorem feedBlock_cons {p : Params} {x y : Block} {b : Byte} {evt : Event} {f : Option Frame}
    (h : processByte p x b = (y, evt, f)) (rest : List Byte) :
    feedBlock p (b :: rest) x = ((feedBlock p rest y).1, evt :: (feedBlock p rest y).2) := by
  simp only [feedBlock, h]

/-- The same with what `PROCESS_BYTE` answers named by its parts. -/
theorem feedBlock_cons_eq (p : Params) (b : Byte) (rest : List Byte) (x : Block) :
    feedBlock p (b :: rest) x =
      ((feedBlock p rest (processByte p x b).1).1,
        (processByte p x b).2.1 :: (feedBlock p rest (processByte p x b).1).2) := rfl

theorem feedBlock_concat_of {p : Params} {bytes : List Byte} {x y z : Block} {b : Byte}
    {evts : List Event} {evt : Event} {f : Option Frame} (h : feedBlock p bytes x = (y, evts))
    (hb : processByte p y b = (z, evt, f)) :
    feedBlock p (bytes ++ [b]) x = (z, evts ++ [evt]) := by
  rw [feedBlock_append, h, feedBlock_cons hb]
  rfl

@[simp] theorem feedBlock_inq (p : Params) (bytes : List Byte) (x : Block) :
    (feedBlock p bytes x).1.inq = x.inq := by
  induction bytes using List.reverseRecOn with
  | nil => rfl
  | append_singleton bytes b ih => rw [feedBlock_concat, processByte_inq, ih]

@[simp] theorem feedBlock_events_length (p : Params) (bytes : List Byte) (x : Block) :
    (feedBlock p bytes x).2.length = bytes.length := by
  induction bytes generalizing x with
  | nil => rfl
  | cons b rest ih => rw [feedBlock_cons rfl, List.length_cons, ih, List.length_cons]

/-- The results of a `FEED` carry the events of `feedBlock`, one each. -/
theorem replay_events (p : Params) (bytes : List Byte) (x : Block) :
    (replay p bytes x).2.map Result.event = (feedBlock p bytes x).2.map some := by
  induction bytes generalizing x with
  | nil => rfl
  | cons b rest ih =>
    rw [replay_cons rfl, feedBlock_cons_eq, List.map_cons, List.map_cons, ih]
    rfl

/-- Settles O23: `replay` is the run, and `feedBlock` is `replay` with the events alone. -/
theorem feedRunsProcessByte : Obligations.FeedRunsProcessByte := by
  intro bytes s x hx
  obtain ⟨r, hrun⟩ := runAll_pseudoFeed bytes hx
  refine ⟨_, _, hrun, ?_, replay_events s.params bytes x⟩
  simp only [feedBlock_eq_replay]

/-! ### A whole wire frame (41 R93) -/

theorem feedBlock_of_replay_undecided {p : Params} {bytes : List Byte} {x y : Block} {n : Nat}
    (h : replay p bytes x = (y, List.replicate n (.processed .none none))) :
    feedBlock p bytes x = (y, List.replicate n .none) := by
  rw [feedBlock_eq_replay, h, List.filterMap_replicate_of_some (f := Result.event) rfl]

/-- Settles O24: the stages of the replay, and the decision at the last byte. -/
theorem wholeWireFrameFromSeekingZero : Obligations.WholeWireFrameFromSeekingZero := by
  intro p x payload c1 c2 hw hs hlen
  have hn : 1 ≤ x.cfg.n := ((cfgWf_iff p _).mp ((blockWf_iff p x).mp hw).1).1
  have hsync := feedBlock_of_replay_undecided
    (replay_syncRest p (seen := []) (x := x) rfl (List.ne_nil_of_length_pos hn) hs)
  have hpayload := feedBlock_of_replay_undecided (replay_payloadRest p (rest := payload)
    (x := { x with sync := ⟨.capturing 0 0 0, List.replicate x.cfg.payloadLen 0⟩ })
    rfl List.length_replicate (by simpa using hlen))
  have hcheck := feedBlock_of_replay_undecided (replay_upToCheck1 p c1 hs hn hlen)
  refine ⟨hsync, ?_, hcheck, ?_⟩
  · rw [feedBlock_append, hsync, hpayload, hlen, List.replicate_append_replicate]
    rfl
  · rw [show x.cfg.syncPattern ++ payload ++ [c1, c2] =
      x.cfg.syncPattern ++ payload ++ [c1] ++ [c2] by simp]
    simp only [ne_eq, ← receivedChecksum_eq_iff]
    split
    next hne => exact feedBlock_concat_of hcheck (processByte_cCheck2_reject rfl hlen hne)
    next he =>
      have he := not_not.mp he
      split
      next hr => exact feedBlock_concat_of hcheck (processByte_cCheck2_accept rfl hlen he hr)
      next hr =>
        exact feedBlock_concat_of hcheck
          (processByte_cCheck2_drop rfl hlen he (Bool.eq_false_iff.mpr hr))

/-! ### A pattern missed (70 R163) -/

/-- In `Seeking(0)` bytes that are not `SYNC[0]` change nothing. -/
theorem feedBlock_seekingZero_of_not_mem {p : Params} {x : Block} {a : Byte} {bytes : List Byte}
    (hs : x.sync.state = .seeking 0) (ha : x.cfg.syncPattern[0]? = some a) (hmem : a ∉ bytes) :
    feedBlock p bytes x = (x, List.replicate bytes.length .none) := by
  induction bytes with
  | nil => rfl
  | cons b rest ih =>
    obtain ⟨hab, hrest⟩ := List.ne_and_not_mem_of_not_mem_cons hmem
    have hb : x.cfg.syncPattern[0]? ≠ some b := by simpa [ha] using hab
    have hsame : { x with sync := { x.sync with state := .seeking 0 } } = x := by rw [← hs]
    have hstep := processByte_undecided (p := p) (syncStep_sMismatch hs hb)
    rw [hsame] at hstep
    rw [feedBlock_cons hstep, ih hrest, List.length_cons, List.replicate_succ]

/-- Settles O30: the first byte advances to index 1, the second mismatches there, and none of the
others begins the pattern. -/
theorem restartWithoutOverlapMissesPattern : Obligations.RestartWithoutOverlapMissesPattern := by
  intro p x a rest hs hpat hne hmem
  obtain ⟨b, rest', rfl⟩ := List.exists_cons_of_ne_nil hne
  have hab : b ≠ a := fun h => hmem (h ▸ List.mem_cons_self)
  have hn : x.cfg.n = (b :: rest').length + 1 := by simp [CfgRecord.n, hpat]
  have hfirst : processByte p x a =
      ({ x with sync := ⟨.seeking 1, x.sync.payloadBuffer⟩ }, .none, none) :=
    processByte_undecided (syncStep_sMatch hs (by simp [hpat]) (by simp [hn]))
  have hsecond : processByte p { x with sync := ⟨.seeking 1, x.sync.payloadBuffer⟩ } a =
      ({ x with sync := ⟨.seeking 0, x.sync.payloadBuffer⟩ }, .none, none) :=
    processByte_undecided (syncStep_sMismatch (k := 1) rfl (by simpa [hpat] using hab))
  have hrest : feedBlock p (b :: rest') { x with sync := ⟨.seeking 0, x.sync.payloadBuffer⟩ } = _ :=
    feedBlock_seekingZero_of_not_mem rfl (by simp [hpat]) hmem
  rw [hpat, feedBlock_cons hfirst, feedBlock_cons hsecond, hrest, hn, List.replicate_succ,
    List.replicate_succ]

/-! ### The length of a capture (41 R90, R98) -/

/-- Payload bytes only move `payloadFill`, whatever they are. -/
theorem feedBlock_payload_state (p : Params) {bytes : List Byte} {x : Block} {fill : Nat}
    {cf : Fin 2} {hi : Byte} (hs : x.sync.state = .capturing fill cf hi)
    (hf : fill + bytes.length ≤ x.cfg.payloadLen) :
    (feedBlock p bytes x).1.sync.state = .capturing (fill + bytes.length) cf hi := by
  induction bytes generalizing x fill with
  | nil => exact hs
  | cons b rest ih =>
    rw [List.length_cons] at hf ⊢
    have hstep := processByte_undecided (p := p) (b := b)
      (syncStep_cPayload hs (Nat.lt_of_lt_of_le (by omega) hf))
    rw [feedBlock_cons hstep, ih (fill := fill + 1) rfl (by simpa using by omega)]
    congr 1
    omega

/-- The first checksum byte is kept, whatever it is. -/
theorem feedBlock_check1_state {p : Params} {bytes : List Byte} {x : Block} {hi b : Byte}
    (hs : (feedBlock p bytes x).1.sync.state = .capturing x.cfg.payloadLen 0 hi) :
    (feedBlock p (bytes ++ [b]) x).1.sync.state = .capturing x.cfg.payloadLen 1 b := by
  rw [feedBlock_concat, processByte_sync, syncStep_cCheck1 (by rwa [feedBlock_cfg]), feedBlock_cfg]

/-- The second checksum byte ends the capture, whatever it is. -/
theorem feedBlock_check2_state {p : Params} {bytes : List Byte} {x : Block} {hi b : Byte}
    (hs : (feedBlock p bytes x).1.sync.state = .capturing x.cfg.payloadLen 1 hi) :
    (feedBlock p (bytes ++ [b]) x).1.sync.state = .seeking 0 := by
  rw [feedBlock_concat, processByte_sync, syncStep_cCheck2 (by rwa [feedBlock_cfg])]

/-- The last two bytes of a run that has two. -/
theorem exists_concat_concat {bytes : List Byte} (h : 2 ≤ bytes.length) :
    ∃ front c1 c2, bytes = front ++ [c1] ++ [c2] := by
  obtain rfl | ⟨init, c2, rfl⟩ := List.eq_nil_or_concat bytes
  · simp at h
  · obtain rfl | ⟨front, c1, rfl⟩ := List.eq_nil_or_concat init
    · simp at h
    · exact ⟨front, c1, c2, by simp⟩

/-- From `payloadFill` on, a capture takes the rest of the payload and two bytes, and is `Capturing`
before each of them. -/
theorem feedBlock_capture_state (p : Params) {bytes : List Byte} {x : Block} {fill : Nat}
    {hi : Byte} (hs : x.sync.state = .capturing fill 0 hi) (hf : fill ≤ x.cfg.payloadLen)
    (hlen : fill + bytes.length = x.cfg.payloadLen + 2) :
    (∀ m, m < bytes.length → (feedBlock p (bytes.take m) x).1.sync.state.mode = .capturing) ∧
      (feedBlock p bytes x).1.sync.state = .seeking 0 := by
  obtain ⟨payload, c1, c2, rfl⟩ : ∃ payload c1 c2, bytes = payload ++ [c1] ++ [c2] :=
    exists_concat_concat (by omega)
  simp only [List.length_append, List.length_singleton] at hlen ⊢
  have hpayload := feedBlock_payload_state p (bytes := payload) hs (by omega)
  rw [show fill + payload.length = x.cfg.payloadLen by omega] at hpayload
  have hcheck1 := feedBlock_check1_state (b := c1) hpayload
  refine ⟨fun m hm => ?_, feedBlock_check2_state hcheck1⟩
  rw [List.take_append_of_le_length (by simp; omega)]
  rcases Nat.lt_or_ge payload.length m with hgt | hle
  · rw [List.take_of_length_le (by simp; omega), hcheck1]
    rfl
  · rw [List.take_append_of_le_length hle, feedBlock_payload_state p hs (by simp; omega)]
    rfl

/-- The core does not look at the sync pattern in `Capturing` (41 R90). -/
theorem syncStep_capturing_pattern {c : CfgRecord} {y : Synchronizer} (b : Byte)
    (h : y.state.mode = .capturing) (pattern : List Byte) :
    syncStep ⟨pattern, c.payloadLen⟩ y b = syncStep c y b := by
  unfold syncStep
  split
  next k hk => rw [hk] at h; cases h
  next => rfl

theorem processByte_withPattern {p : Params} {x : Block} (b : Byte)
    (h : x.sync.state.mode = .capturing) (pattern : List Byte) :
    processByte p { x with cfg := ⟨pattern, x.cfg.payloadLen⟩ } b =
      ({ (processByte p x b).1 with cfg := ⟨pattern, x.cfg.payloadLen⟩ },
        (processByte p x b).2) := by
  have hcore := syncStep_capturing_pattern (c := x.cfg) b h pattern
  obtain ⟨y, o, hs, ⟨rfl, e⟩ | ⟨rfl, e⟩ | ⟨f, rfl, hr, e⟩ | ⟨f, rfl, hr, e⟩⟩ :=
    processByte_cases p x b <;> rw [e] <;> rw [hs] at hcore
  · exact processByte_undecided (x := { x with cfg := ⟨pattern, x.cfg.payloadLen⟩ }) hcore
  · exact processByte_mismatched (x := { x with cfg := ⟨pattern, x.cfg.payloadLen⟩ }) hcore
  · exact processByte_matched_room (x := { x with cfg := ⟨pattern, x.cfg.payloadLen⟩ }) hcore hr
  · exact processByte_matched_full (x := { x with cfg := ⟨pattern, x.cfg.payloadLen⟩ }) hcore hr

/-- A run whose bytes all arrive in `Capturing` is the same for every sync pattern. -/
theorem feedBlock_withPattern {p : Params} {bytes : List Byte} {x : Block}
    (h : ∀ m, m < bytes.length → (feedBlock p (bytes.take m) x).1.sync.state.mode = .capturing)
    (pattern : List Byte) :
    feedBlock p bytes { x with cfg := ⟨pattern, x.cfg.payloadLen⟩ } =
      ({ (feedBlock p bytes x).1 with cfg := ⟨pattern, x.cfg.payloadLen⟩ },
        (feedBlock p bytes x).2) := by
  induction bytes generalizing x with
  | nil => rfl
  | cons b rest ih =>
    have hrest := ih (x := (processByte p x b).1) fun m hm => h (m + 1) (Nat.succ_lt_succ hm)
    have hmode : x.sync.state.mode = .capturing := h 0 (Nat.succ_pos _)
    rw [processByte_cfg] at hrest
    rw [feedBlock_cons (processByte_withPattern b hmode pattern), hrest, feedBlock_cons_eq]

/-- Settles O28: a capture from `payloadFill = 0`, none of whose bytes is compared with the pattern.
-/
theorem captureConsumesExactlyItsBytes : Obligations.CaptureConsumesExactlyItsBytes := by
  intro p x hi bytes hs hlen
  obtain ⟨hmode, hend⟩ :=
    feedBlock_capture_state p hs (Nat.zero_le _) (by rw [Nat.zero_add]; exact hlen)
  exact ⟨fun m hm => hmode m (hlen ▸ hm), hend, feedBlock_withPattern hmode⟩

/-- Settles O29: in `Seeking` no byte is needed, before the checksum the rest of the frame, and
after its first byte one. -/
theorem alwaysReturnsToSeeking : Obligations.AlwaysReturnsToSeeking := by
  intro p x bytes hw hlen
  have hsync := ((blockWf_iff p x).mp hw).2.1
  cases hs : x.sync.state with
  | seeking k =>
    have hmode : x.sync.state.mode = .seeking := by rw [hs]; rfl
    exact ⟨0, Nat.zero_le _, hmode⟩
  | capturing fill cf hi =>
    obtain ⟨-, hle, hfull, -⟩ := (syncWf_capturing hs).mp hsync
    by_cases hcf : cf = 0
    · subst hcf
      refine ⟨x.cfg.payloadLen + 2 - fill, Nat.sub_le _ _, ?_⟩
      rw [(feedBlock_capture_state p hs hle (by simp; omega)).2]
      rfl
    · obtain rfl : cf = 1 := by omega
      obtain rfl : fill = x.cfg.payloadLen := hfull.resolve_right hcf
      obtain ⟨b, rest, rfl⟩ := List.exists_cons_of_length_pos (l := bytes) (by omega)
      refine ⟨1, by omega, ?_⟩
      have hend := feedBlock_check2_state (p := p) (bytes := []) (b := b) hs
      rw [show (b :: rest).take 1 = [] ++ [b] from rfl, hend]
      rfl

end Sys2Proof.Machine
end

section
/-! `DRAIN` as repeated `STEP` (42 R105), as engine turns (log 9), and against direct drive
(42 R109). -/

namespace Sys2Proof.Machine

open Sys2Proof

/-! ### `DRAIN` and `STEP` -/

theorem drainBlock_eq_feedBlock (p : Params) (x : Block) :
    drainBlock p x = ({ (feedBlock p x.inq x).1 with inq := [] }, (feedBlock p x.inq x).2) :=
  drainBlock_withInq p x.inq x

theorem drainBlock_nil {x : Block} (h : x.inq = []) (p : Params) : drainBlock p x = (x, []) := by
  simp only [drainBlock, h, List.length_nil, drainLoop]

/-- A `STEP` that finds a byte is the first of the loop. -/
theorem drainBlock_cons {p : Params} {x : Block} {b : Byte} {rest : List Byte}
    (h : x.inq = b :: rest) :
    drainBlock p x =
      ((drainBlock p { (processByte p x b).1 with inq := rest }).1,
        (processByte p x b).2.1 ::
          (drainBlock p { (processByte p x b).1 with inq := rest }).2) := by
  rw [drainBlock_eq_feedBlock, h, feedBlock_cons_eq, drainBlock_withInq]

@[simp] theorem drainBlock_events_length (p : Params) (x : Block) :
    (drainBlock p x).2.length = x.inq.length := by
  rw [drainBlock_eq_feedBlock, feedBlock_events_length]

theorem exec_drain_empty {s : State} {x : Block} (hx : s.inst = .built x) (hq : x.inq = []) :
    exec .drain s = .next { s with result := some (.drained []) } := by
  rw [exec_drain hx (drainBlock_nil hq s.params), answer_sameInstance hx]

/-- Settles O36: `inq` is empty, or its oldest byte is the one the first `STEP` takes. -/
theorem drainIsRepeatedStep : Obligations.DrainIsRepeatedStep := by
  refine ⟨rfl, fun s x hx => ⟨exec_drain_empty hx, fun hne => ?_⟩⟩
  obtain ⟨b, rest, hq⟩ := List.exists_cons_of_ne_nil hne
  have hstep := exec_step hx (engineStep_cons (p := s.params) hq)
  have hall := exec_drain hx (drainBlock_cons (p := s.params) hq)
  exact ⟨_, _, _, _, hstep, rfl, exec_drain rfl rfl, rfl, hall⟩

/-- Settles O37: one event a byte, the input FIFO empty, the configuration kept. -/
theorem drainEmptiesInputQueue : Obligations.DrainEmptiesInputQueue :=
  fun s x hx => ⟨_, _, exec_drain hx rfl, drainBlock_events_length s.params x,
    drainBlock_inq s.params x, drainBlock_cfg s.params x⟩

/-! ### Engine turns (log 9) -/

theorem run_succ {s t : State} (h : step s = .next t) (n : Nat) :
    Host.Core.run core (n + 1) s = Host.Core.run core n t := by
  have hcore : core.step s = .next t := h
  simp only [Host.Core.run, hcore]

/-- The turns of a `DRAIN` in flight take the bytes of `inq` one by one, and the last returns the
events of all. -/
theorem run_drainTurns {s : State} {x : Block} {q : List Byte} {rest : List Input}
    (hx : s.inst = .built x) (hq : x.inq = q)
    (hp : s.pending = List.replicate (q.length + 1) .drainTurn ++ rest) :
    Host.Core.run core (q.length + 1) s = .next { s with
      inst := .built (drainBlock s.params x).1
      result := some (.drained (s.draining.getD [] ++ (drainBlock s.params x).2))
      draining := none
      pending := rest } := by
  induction q generalizing s x with
  | nil =>
    have hp : s.pending = .drainTurn :: rest := hp
    have hturn : step s = .next { s with
        result := some (.drained (s.draining.getD [])), draining := none, pending := rest } := by
      rw [step_drainTurn hp, drainTurn_nil (s := s.took rest) hx hq]
      rfl
    rw [List.length_nil, run_succ hturn, drainBlock_nil hq, List.append_nil, ← hx]
    rfl
  | cons b q ih =>
    have hp : s.pending = .drainTurn :: (List.replicate (q.length + 1) .drainTurn ++ rest) := hp
    have hturn := (step_drainTurn hp).trans
      (drainTurn_some (s := s.took _) hx (engineStep_cons hq))
    rw [List.length_cons, run_succ hturn,
      ih (x := { (processByte s.params x b).1 with inq := q }) rfl rfl rfl, drainBlock_cons hq]
    simp

/-- Settles O38: the turns and the operation both leave `drainBlock`. -/
theorem drainTurnsComposeToDrain : Obligations.DrainTurnsComposeToDrain := by
  intro s x rest hx hd hp
  rcases hall : drainBlock s.params x with ⟨y, evts⟩
  refine ⟨_, _, exec_drain hx hall, run_drainTurns hx rfl hp, ?_⟩
  simp only [hall, hd, answer_draining]
  rfl

/-! ### Direct drive and queue drive (42 R109) -/

/-- Settles O40: `FEED` and `DRAIN` both leave `feedBlock` of the bytes, on an empty input FIFO. -/
theorem directDriveEqualsQueueDrive : Obligations.DirectDriveEqualsQueueDrive := by
  intro s x bytes hx hq hfit
  have hroom : s.params.inDepth.admits (x.inq.length + bytes.length) = true := by
    simpa [hq] using hfit
  have hdrain : drainBlock s.params { x with inq := x.inq ++ bytes } =
      feedBlock s.params bytes x := by
    have hinq : (feedBlock s.params bytes x).1.inq = [] := by rw [feedBlock_inq, hq]
    rw [hq, List.nil_append, drainBlock_withInq, ← hinq]
  obtain ⟨r, hfeed⟩ := runAll_pseudoFeed bytes hx
  refine ⟨_, _, _, _, runAll_inEnq hx hroom (runAll_drain rfl hdrain rfl), hfeed, ?_,
    replay_events s.params bytes x⟩
  simp [feedBlock_eq_replay]

end Sys2Proof.Machine
end

section
/-! Both FIFOs give back what was put in, in order (20 R41). -/

namespace Sys2Proof.Machine

open Sys2Proof

theorem runAll_cons_next {i : Instr} {rest : List Instr} {s u : State} {rs : List Result}
    (h : runAll (i :: rest) s = .next (u, rs)) :
    ∃ t rs', exec i s = .next t ∧ runAll rest t = .next (u, rs') ∧ rs = t.result.toList ++ rs' := by
  rw [runAll] at h
  split at h
  next t hi =>
    split at h
    next v rs' hrest =>
      cases h
      exact ⟨t, rs', hi, hrest, rfl⟩
    next => cases h
    next => cases h
  next => cases h
  next => cases h

/-- A run of one list of operations after another. -/
theorem runAll_append {a b : List Instr} {s t u : State} {rs rs' : List Result}
    (ha : runAll a s = .next (t, rs)) (hb : runAll b t = .next (u, rs')) :
    runAll (a ++ b) s = .next (u, rs ++ rs') := by
  induction a generalizing s rs with
  | nil =>
    cases ha
    exact hb
  | cons i rest ih =>
    obtain ⟨v, rs'', hi, hrest, rfl⟩ := runAll_cons_next ha
    rw [List.cons_append, runAll_cons hi (ih hrest), List.append_assoc]

theorem runAll_inDeqs {s : State} {x : Block} {q : List Byte} (hx : s.inst = .built x)
    (hq : x.inq = q) :
    ∃ r, runAll (List.replicate q.length .inDeq) s =
      .next ({ s with inst := .built { x with inq := [] }, result := r },
        q.map (fun b => .byteOut (some b))) := by
  induction q generalizing s x with
  | nil =>
    have hsame : { x with inq := [] } = x := by rw [← hq]
    exact ⟨s.result, by rw [hsame, ← hx]; rfl⟩
  | cons b rest ih =>
    have hdeq := exec_inDeq hx (dequeueByte_cons hq)
    obtain ⟨r, hr⟩ := ih (x := { x with inq := rest }) (s := s.answer _ (.byteOut (some b))) rfl rfl
    exact ⟨r, runAll_cons hdeq hr⟩

theorem runAll_outDeqs {s : State} {x : Block} {q : List Frame} (hx : s.inst = .built x)
    (hq : x.outq = q) :
    ∃ r, runAll (List.replicate q.length .outDeq) s =
      .next ({ s with inst := .built { x with outq := [] }, result := r },
        q.map (fun f => .frameOut (some f))) := by
  induction q generalizing s x with
  | nil =>
    have hsame : { x with outq := [] } = x := by rw [← hq]
    exact ⟨s.result, by rw [hsame, ← hx]; rfl⟩
  | cons f rest ih =>
    have hdeq := exec_outDeq hx (dequeueFrame_cons hq)
    obtain ⟨r, hr⟩ :=
      ih (x := { x with outq := rest }) (s := s.answer _ (.frameOut (some f))) rfl rfl
    exact ⟨r, runAll_cons hdeq hr⟩

theorem runAll_outEnqs {s : State} {x : Block} {frames : List Frame} (hx : s.inst = .built x)
    (hlen : ∀ f ∈ frames, f.length = x.cfg.payloadLen)
    (hfit : s.params.outDepth.admits (x.outq.length + frames.length) = true) :
    ∃ r, runAll (frames.map .outEnq) s =
      .next ({ s with inst := .built { x with outq := x.outq ++ frames }, result := r },
        List.replicate frames.length (.enqueued true)) := by
  induction frames generalizing s x with
  | nil => exact ⟨s.result, by rw [List.append_nil, ← hx]; rfl⟩
  | cons f rest ih =>
    have henq := exec_outEnq hx (hlen f List.mem_cons_self)
      (enqueueFrame_room f (admits_mono hfit (by simp)))
    obtain ⟨r, hr⟩ := ih (x := { x with outq := x.outq ++ [f] })
      (s := s.answer _ (.enqueued true)) rfl (fun g hg => hlen g (List.mem_cons_of_mem _ hg))
      (admits_mono hfit (by simp; omega))
    refine ⟨r, (runAll_cons henq hr).trans ?_⟩
    simp [List.replicate_succ]

/-- Settles O42: the entries appended stand behind those that were there, and dequeues take them
from the front. -/
theorem queuesAreFirstInFirstOut : Obligations.QueuesAreFirstInFirstOut := by
  refine ⟨fun s x a c hx hfit => ?_, fun s x frames hx hlen hfit => ?_⟩
  · have hac : s.params.inDepth.admits ((x.inq ++ a).length + c.length) = true :=
      admits_mono hfit (by simp)
    have henq := runAll_inEnq hx (admits_mono hfit (by omega))
      (runAll_inEnq (rest := []) (chunk := c) rfl hac rfl)
    obtain ⟨r, hdeq⟩ := runAll_inDeqs (q := x.inq ++ a ++ c)
      (s := (s.answer (.built { x with inq := x.inq ++ a }) (.enqueued true)).answer
        (.built { x with inq := x.inq ++ a ++ c }) (.enqueued true)) rfl rfl
    simp only [List.length_append] at hdeq
    exact ⟨_, runAll_append henq hdeq, rfl⟩
  · obtain ⟨r, henq⟩ := runAll_outEnqs hx hlen hfit
    obtain ⟨r', hdeq⟩ := runAll_outDeqs (q := x.outq ++ frames)
      (s := { s with inst := .built { x with outq := x.outq ++ frames }, result := r }) rfl rfl
    rw [List.length_append] at hdeq
    exact ⟨_, runAll_append henq hdeq, rfl⟩

end Sys2Proof.Machine
end

section
/-! Clock cycles (30 R62 to R64): with no instance, the output signals of one, and a cycle as an
interleaving of operations none of which fails. -/

namespace Sys2Proof.Machine

open Sys2Proof

/-! ### With no instance (43 R122, log 11) -/

/-- Settles O58: `rst` constructs from the constants, and any other cycle leaves the block alone. -/
theorem firstRstConstructs : Obligations.FirstRstConstructs := by
  intro s i rest hinst hp
  obtain ⟨o, ho⟩ := portCycle_noInstance (s := s.took rest) hinst i
  refine ⟨_, _, step_cycle hp, exec_config _ s, ?_⟩
  rw [ho]
  cases hr : i.rst with
  | false => rw [cycleUnbuilt_idle hr]; rfl
  | true =>
    rw [cycleUnbuilt_rst hr]
    change { construct (some s.straps) (s.took rest) with
      result := some (.ports o), portCycles := s.portCycles + 1 } = _
    cases hc : checkConfig s.params (some s.straps) with
    | ok c => rw [construct_of_ok hc, construct_of_ok (s := s.took rest) hc]; rfl
    | error e => rw [construct_of_error hc, construct_of_error (s := s.took rest) hc]; rfl

theorem portCycle_failed {s : State} {e : CfgError} {i : PortsIn} (h : s.inst = .failed e)
    (hr : i.rst = false) :
    portCycle i s = { s with
      result := some (.ports (deadOutputs s.portCycles s.straps (cfgCode (some e))))
      portCycles := s.portCycles + 1 } := by
  simp only [portCycle, h, cycleUnbuilt_idle hr]

/-- Settles O59: each cycle leaves the failure as it is, and shows it. -/
theorem failedConstructionIsDeadOnPorts : Obligations.FailedConstructionIsDeadOnPorts := by
  intro is s e rest hinst hr hp hne
  induction is generalizing s with
  | nil => exact absurd rfl hne
  | cons i is ih =>
    have hcycle : portCycle i (s.took (is.map .cycle ++ rest)) = _ :=
      portCycle_failed hinst (hr i List.mem_cons_self)
    have hstep := step_cycle (rest := is.map .cycle ++ rest) hp
    rw [hcycle] at hstep
    rw [List.length_cons, run_succ hstep]
    cases is with
    | nil => exact ⟨_, _, rfl, hinst, rfl, rfl, rfl, rfl, rfl, rfl⟩
    | cons j js =>
      exact ih _ hinst (fun k hk => hr k (List.mem_cons_of_mem i hk)) rfl (List.cons_ne_nil j js)

/-! ### The output signals of an instance (30 R62) -/

/-- A cycle has an event only where it has a `STEP`. -/
theorem cycleBlock_event_none {p : Params} {x : Block} {i : PortsIn}
    (h : i.rst = true ∨ i.close = true ∨ i.run = false ∨ x.inq = []) :
    (cycleBlock p x i).2 = none := by
  cases hr : i.rst with
  | true => rw [cycleBlock_rst hr]
  | false =>
    rw [cycleBlock_noRst hr]
    change (cycleEngine p (cyclePlan p x i) x).2 = none
    rw [cycleEngine_cyclePlan]
    rcases h with h | h | h | h
    · rw [hr] at h; cases h
    · rw [if_pos h]
    · simp only [h]; split <;> rfl
    · rw [engineStep_nil h, ite_self]; split <;> rfl

theorem cycleBlock_event_step {p : Params} {x : Block} {i : PortsIn} {b : Byte} {q : List Byte}
    (hr : i.rst = false) (hc : i.close = false) (hrun : i.run = true) (hq : x.inq = b :: q) :
    (cycleBlock p x i).2 = some (processByte p x b).2.1 := by
  rw [cycleBlock_noRst hr]
  change (cycleEngine p (cyclePlan p x i) x).2 = _
  rw [cycleEngine_cyclePlan, hc, if_neg Bool.false_ne_true, if_pos hrun, engineStep_cons hq]

theorem cycleOutputs_evtValid_some (p : Params) (n : Nat) (x : Block) (e : Event) :
    (cycleOutputs p n x (some e)).evtValid = true ↔ e ≠ .none := by
  cases e <;> simp [cycleOutputs, announcedEvent]

theorem cycleOutputs_evtCode {e : Event} (he : e ≠ .none) (p : Params) (n : Nat) (x : Block) :
    (cycleOutputs p n x (some e)).evtCode = e.code := by
  cases e with
  | none => exact absurd rfl he
  | frameValid | crcError | frameDropped => rfl

theorem cycleOutputs_outData {x : Block} {f : Frame} {q : List Frame} (h : x.outq = f :: q)
    (p : Params) (n : Nat) (evt : Option Event) :
    (cycleOutputs p n x evt).outData = frameBus f := by
  simp only [cycleOutputs, h]

/-- Settles O57: the signals of `cycleOutputs`, with the event of the cycle's `STEP`. -/
theorem clockCycleOutputs : Obligations.ClockCycleOutputs := by
  intro s x i rest hx hp
  have hstep := step_cycle hp
  rw [portCycle_built (s := s.took rest) hx] at hstep
  refine ⟨_, _, hstep, rfl, rfl, rfl, rfl, rfl, rfl, fun f q hq => cycleOutputs_outData hq _ _ _,
    fun h => ?_, fun hr hc hrun b q hq => ?_⟩
  · rw [cycleBlock_event_none h]
    rfl
  · rw [took_params, cycleBlock_event_step hr hc hrun hq]
    exact ⟨_, _, _, exec_processByte hx rfl, rfl, cycleOutputs_evtValid_some _ _ _ _,
      fun he => cycleOutputs_evtCode he _ _ _⟩

/-! ### A cycle as an interleaving (30 R64) -/

/-- On every machine with these parameters that holds `x` the operations run through, leave `y` and
nothing else but a result, and none of them answers `EMPTY` or `ERR_FULL`. -/
def Performs (p : Params) (ops : List Instr) (x y : Block) : Prop :=
  ∀ s : State, s.inst = .built x → s.params = p →
    ∃ r rs, runAll ops s = .next ({ s with inst := .built y, result := r }, rs) ∧
      .stepped none ∉ rs ∧ .frameOut none ∉ rs ∧ .enqueued false ∉ rs

theorem performs_nil (p : Params) (x : Block) : Performs p [] x x :=
  fun s hx _ => ⟨s.result, [], by rw [← hx]; rfl, by simp, by simp, by simp⟩

theorem Performs.append {p : Params} {a b : List Instr} {x y z : Block} (hxy : Performs p a x y)
    (hyz : Performs p b y z) : Performs p (a ++ b) x z := by
  intro s hx hp
  obtain ⟨r, rs, ha, hstep, hframe, hfull⟩ := hxy s hx hp
  obtain ⟨r', rs', hb, hstep', hframe', hfull'⟩ :=
    hyz { s with inst := .built y, result := r } rfl hp
  exact ⟨r', rs ++ rs', runAll_append ha hb, by simp [hstep, hstep'], by simp [hframe, hframe'],
    by simp [hfull, hfull']⟩

theorem performs_singleton {p : Params} {i : Instr} {x y : Block} {r : Result}
    (h : ∀ s, s.inst = .built x → s.params = p → exec i s = .next (s.answer (.built y) r))
    (hr : r ≠ .stepped none ∧ r ≠ .frameOut none ∧ r ≠ .enqueued false) : Performs p [i] x y := by
  intro s hx hp
  obtain ⟨hstep, hframe, hfull⟩ := hr
  exact ⟨some r, [r], runAll_cons (h s hx hp) rfl, by simpa using hstep.symm,
    by simpa using hframe.symm, by simpa using hfull.symm⟩

theorem performs_reset (p : Params) (x : Block) : Performs p [.reset] x (resetBlock x) :=
  performs_singleton (fun _ hx _ => exec_reset hx) (by simp)

theorem performs_close (p : Params) (x : Block) : Performs p [.close] x (closeBlock x).1 :=
  performs_singleton (fun _ hx _ => exec_close hx rfl) (by simp)

/-- A `STEP` with a byte waiting returns an event. -/
theorem performs_step {x : Block} (h : x.inq ≠ []) (p : Params) :
    Performs p [.step] x (engineStep p x).1 := by
  obtain ⟨b, rest, hq⟩ := List.exists_cons_of_ne_nil h
  rw [engineStep_cons hq]
  exact performs_singleton (r := .stepped (some (processByte p x b).2.1))
    (fun s hx hp => exec_step hx (by rw [hp, engineStep_cons hq])) (by simp)

/-- An `OUT_DEQ` with a frame waiting returns it. -/
theorem performs_outDeq {x : Block} (h : x.outq ≠ []) (p : Params) :
    Performs p [.outDeq] x (dequeueFrame x).1 := by
  obtain ⟨f, rest, hq⟩ := List.exists_cons_of_ne_nil h
  rw [dequeueFrame_cons hq]
  exact performs_singleton (fun s hx _ => exec_outDeq hx (dequeueFrame_cons hq)) (by simp)

/-- An `IN_ENQ` of a byte that fits is taken. -/
theorem performs_inEnq {p : Params} {x : Block} (h : p.inDepth.admits (x.inq.length + 1) = true)
    (b : Byte) : Performs p [.inEnq [b]] x (enqueueChunk p x [b]).1 := by
  rw [enqueueChunk_room h]
  exact performs_singleton (fun s hx hp => exec_inEnq hx (by rw [hp]; exact enqueueChunk_room h))
    (by simp)

/-! Each effect of a cycle is chosen from the state at its start; the one before it cannot take away
what it needs. -/

theorem performs_cycleEngine (p : Params) (x : Block) (i : PortsIn) :
    Performs p
      (if i.close = true then [.close] else if i.run = true ∧ x.inq ≠ [] then [.step] else [])
      x (cycleEngine p (cyclePlan p x i) x).1 := by
  rw [cycleEngine_cyclePlan]
  split
  next => exact performs_close p x
  next =>
    by_cases hq : x.inq = []
    · rw [if_neg (by simp [hq]), engineStep_nil hq, ite_self]
      exact performs_nil p x
    · by_cases hrun : i.run = true
      · rw [if_pos ⟨hrun, hq⟩, if_pos hrun]
        exact performs_step hq p
      · rw [if_neg (by simp [hrun]), if_neg hrun]
        exact performs_nil p x

theorem performs_cycleOutDeq (p : Params) {x y : Block} (i : PortsIn)
    (h : x.outq ≠ [] → y.outq ≠ []) :
    Performs p (if x.outq ≠ [] ∧ i.outReady = true then [.outDeq] else [])
      y (cycleOutDeq (cyclePlan p x i) y) := by
  have hplan : (cyclePlan p x i).doOutDeq = true ↔ x.outq ≠ [] ∧ i.outReady = true := by
    simp [cyclePlan, outEmpty]
  unfold cycleOutDeq
  split
  next ho => rw [if_pos (hplan.mpr ho)]; exact performs_outDeq (h ho.1) p
  next ho => rw [if_neg (mt hplan.mp ho)]; exact performs_nil p y

theorem performs_cycleInEnq {p : Params} {x y : Block} {i : PortsIn}
    (h : inFull p x = false → p.inDepth.admits (y.inq.length + 1) = true) :
    Performs p (if i.inValid = true ∧ inFull p x = false then [.inEnq [i.inData]] else [])
      y (cycleInEnq p (cyclePlan p x i) i y) := by
  have hplan : (cyclePlan p x i).doInEnq = true ↔ i.inValid = true ∧ inFull p x = false := by
    simp [cyclePlan]
  unfold cycleInEnq
  split
  next hi => rw [if_pos (hplan.mpr hi)]; exact performs_inEnq (h hi.2) i.inData
  next hi => rw [if_neg (mt hplan.mp hi)]; exact performs_nil p y

/-- `STEP` appends to `outq` or leaves it. -/
theorem engineStep_outq_ne_nil {x : Block} (p : Params) (h : x.outq ≠ []) :
    (engineStep p x).1.outq ≠ [] := by
  cases hq : x.inq with
  | nil => rwa [engineStep_nil hq]
  | cons b rest =>
    rw [engineStep_cons hq]
    change (processByte p x b).1.outq ≠ []
    obtain ⟨y, o, -, ⟨-, e⟩ | ⟨-, e⟩ | ⟨f, -, -, e⟩ | ⟨f, -, -, e⟩⟩ := processByte_cases p x b <;>
      rw [e]
    · exact h
    · exact h
    · simp
    · exact h

theorem engineStep_inq (p : Params) (x : Block) : (engineStep p x).1.inq = x.inq.tail := by
  cases hq : x.inq with
  | nil => rw [engineStep_nil hq, hq]; rfl
  | cons b rest => rw [engineStep_cons hq]; rfl

theorem cycleEngine_outq_ne_nil {x : Block} (p : Params) (i : PortsIn) (h : x.outq ≠ []) :
    (cycleEngine p (cyclePlan p x i) x).1.outq ≠ [] := by
  rw [cycleEngine_cyclePlan]
  split
  · exact h
  · split
    · exact engineStep_outq_ne_nil p h
    · exact h

theorem cycleEngine_inq_length_le (p : Params) (x : Block) (i : PortsIn) :
    (cycleEngine p (cyclePlan p x i) x).1.inq.length ≤ x.inq.length := by
  rw [cycleEngine_cyclePlan]
  split
  · exact Nat.le_refl _
  · split
    · rw [engineStep_inq, List.length_tail]; exact Nat.sub_le _ _
    · exact Nat.le_refl _

theorem cycleOutDeq_inq (plan : CyclePlan) (x : Block) : (cycleOutDeq plan x).inq = x.inq := by
  unfold cycleOutDeq
  split
  · cases hq : x.outq with
    | nil => rw [dequeueFrame_nil hq]
    | cons f rest => rw [dequeueFrame_cons hq]
  · rfl

/-- A cycle without `rst` is its three effects in order. -/
theorem performs_cycleBlock_noRst {p : Params} {x : Block} {i : PortsIn} (hw : x.wf p = true)
    (hr : i.rst = false) :
    Performs p
      ((if i.close = true then [.close] else if i.run = true ∧ x.inq ≠ [] then [.step] else []) ++
        (if x.outq ≠ [] ∧ i.outReady = true then [.outDeq] else []) ++
        (if i.inValid = true ∧ inFull p x = false then [.inEnq [i.inData]] else []))
      x (cycleBlock p x i).1 := by
  obtain ⟨-, -, hdepth, -, -⟩ := (blockWf_iff p x).mp hw
  rw [cycleBlock_noRst hr]
  refine ((performs_cycleEngine p x i).append
    (performs_cycleOutDeq p i (cycleEngine_outq_ne_nil p i))).append
    (performs_cycleInEnq fun hfull => ?_)
  rw [cycleOutDeq_inq]
  exact admits_mono ((not_reached_iff_room hdepth).mp hfull)
    (Nat.succ_le_succ (cycleEngine_inq_length_le p x i))

/-- Settles O56: the operations perform the effect of the cycle on the instance. -/
theorem clockCycleIsAnInterleaving : Obligations.ClockCycleIsAnInterleaving := by
  intro s x i rest hx hw hp
  have hstep := step_cycle hp
  rw [portCycle_built (s := s.took rest) hx] at hstep
  cases hr : i.rst with
  | true =>
    obtain ⟨r, rs, hrun, hres⟩ := performs_reset s.params x (s.took rest) hx rfl
    exact ⟨_, _, rs, hstep, hrun, by rw [took_params, cycleBlock_rst hr]; rfl, hres⟩
  | false =>
    obtain ⟨r, rs, hrun, hres⟩ :=
      performs_cycleBlock_noRst ((stateWf_iff s).mp hw x hx) hr (s.took rest) hx rfl
    exact ⟨_, _, rs, hstep, hrun, rfl, hres⟩

end Sys2Proof.Machine
end
